-- ==== Sys2Proof/Config.lean ====
section
/-! DEFINITION. Config: the implementation parameters of 00_scope.md rule R9 and the port values the model
chooses for power-up. The spec leaves no value of the block free (93_implementation_defined.md, opening
lines), so this file holds no opaque constant. -/

namespace Sys2Proof.Config

/-- `IW`, the width in bits of `v_in` and `r_out` (R9, D7, D8). Log entry 4. -/
abbrev iw : Nat := 64

/-- `LW`, the width in bits of `len_in` (R9, D5). Log entry 4. -/
abbrev lw : Nat := 8

/-- The least `IW` the spec admits: every decode result needs 33 bits as a signed number (R9). -/
abbrev leastIw : Nat := 33

/-- The least `LW` the spec admits, so that 2, 4 and one wrong length can be presented (R9). -/
abbrev leastLw : Nat := 3

/-- What the host drives on `op` at power-up. DESIGN CHOICE, unsafe, log entry 1: the spec says "whatever the
host drives" (R171). -/
def powerUpOp : BitVec 4 := 0

/-- What the host drives on `len_in` at power-up. DESIGN CHOICE, unsafe, log entry 1 (R171). -/
def powerUpLen : BitVec 8 := 0

/-- What the host drives on `b_in` at power-up. DESIGN CHOICE, unsafe, log entry 1 (R171). -/
def powerUpBytes : BitVec 32 := 0

/-- What the host drives on `v_in` at power-up. DESIGN CHOICE, unsafe, log entry 1 (R171). -/
def powerUpValue : BitVec 64 := 0

end Sys2Proof.Config
end

