-- ==== Sys2Proof/Word.lean ====
section
/-! DEFINITION. Word: the bit vectors the ports carry (10_state.md rules R29 and R34). Bits are numbered from 0
at the least significant bit (00_scope.md R11); `++` is the spec's concatenation, the left operand more
significant (R12); `toNat` is `uint` and `toInt` is `sint` (R13). The
widths stand here as numerals, so that the arithmetic of proofs sees them; Tests/Slice0.lean shows that they are
Config's. -/

namespace Sys2Proof

/-- A byte, `byte[7:0]` (R11, R14). -/
abbrev Byte := BitVec 8

/-- The operation word `OPW` (R60). -/
abbrev OpWord := BitVec 4

/-- The length port `len_in`, LW = 8 bits (R31). -/
abbrev LenWord := BitVec 8

/-- Four byte lanes, `b_in` or `b_out` (R30, R36). -/
abbrev LaneWord := BitVec 32

/-- The integer ports `v_in` and `r_out`, IW = 64 bits (R32, R35). -/
abbrev IntWord := BitVec 64

end Sys2Proof
end

