-- ==== Sys2Proof/Syntax.lean ====
section
/-! DEFINITION. Syntax: the eight operations (00_scope.md R3, 30_encoding.md R66), one constructor per row of
spec/opcode_table.json, and the textual calls of 30_encoding.md R71 after their aliases are expanded. -/

namespace Sys2Proof

/-- The two byte orders, `Little` and `Big` (R15, R41). -/
inductive Order where
  | little
  | big
deriving DecidableEq, Repr

/-- The four integer kinds of 10_state.md R33. -/
inductive Kind where
  | uint16
  | int16
  | uint32
  | int32
deriving DecidableEq, Repr

/-- The two directions of the DIR field (R61, R62). -/
inductive Direction where
  | decode
  | encode
deriving DecidableEq, Repr

/-- One operation word, decoded. The only operand in the word is the byte order (R65); every other operand
arrives on a port (R67). -/
inductive Instr where
  | decodeU16 (ord : Order)
  | decodeI16 (ord : Order)
  | decodeU32 (ord : Order)
  | decodeI32 (ord : Order)
  | encodeU16 (ord : Order)
  | encodeI16 (ord : Order)
  | encodeU32 (ord : Order)
  | encodeI32 (ord : Order)
deriving DecidableEq, Repr

/-- A textual call with its order made explicit (R71, R72): the mnemonic's direction and kind, the operand and
the order. Byte values and integers are mathematical integers here, because the document's operands are not
bounded (R31, R32); `Call.wf` says which can be presented on the ports. -/
inductive Call where
  | decode (kind : Kind) (bytes : List Nat) (ord : Order)
  | encode (kind : Kind) (value : Int) (ord : Order)
deriving DecidableEq, Repr

end Sys2Proof
end

