-- ==== Sys2Proof/Machine/State.lean ====
section
/-! DEFINITION. State: the values on the block's ports during one evaluation (10_state.md, opening lines and
R28 to R38). The block stores nothing (R20 to R27), so there is no register, memory, pc or flag here; for each
input bit the state also says whether the host holds it at a defined value for the whole evaluation
(70_reset_and_hazards.md R174, log entry 2). -/

namespace Sys2Proof.Machine

/-- An input port: the value on its wires, and for each bit whether it is `held`, that is driven to a defined
0 or 1 and not changed during the evaluation (R174). A bit of `value` whose `held` bit is 0 means nothing. -/
structure InPort (w : Nat) where
  value : BitVec w
  held : BitVec w
deriving DecidableEq, Repr

/-- The four input ports (R29). -/
structure Inputs where
  /-- `op[3:0]`, the operation word -/
  op : InPort 4
  /-- `len_in[7:0]`, the length of the presented byte sequence (R31) -/
  lenIn : InPort 8
  /-- `b_in[31:0]`, byte lanes 0 to 3 (R30) -/
  bIn : InPort 32
  /-- `v_in[63:0]`, the integer operand (R32) -/
  vIn : InPort 64
deriving DecidableEq, Repr

/-- The outcome of an evaluation, exactly three (R141): the code 0b11 has no preimage. -/
inductive Status where
  | ok
  | invalidLength
  | outOfRange
deriving DecidableEq, Repr

/-- The four output ports (R34). The width of `r_out` is an argument because R9 and D27 admit any IW of 33 or
more; the machine's is 64. -/
structure Outputs (iw : Nat) where
  /-- `r_out`, the decoded integer (R35) -/
  rOut : BitVec iw
  /-- `b_out`, byte lanes 0 to 3 of the encoded sequence (R36) -/
  bOut : BitVec 32
  /-- `len_out`, the length of the encoded sequence (R36) -/
  lenOut : BitVec 3
  /-- `err`, the outcome of the current evaluation (R37, R141) -/
  err : Status
deriving DecidableEq, Repr

/-- Everything the spec gives the block: its port values. -/
structure State where
  /-- what the host drives -/
  inputs : Inputs
  /-- what the block drives; `none` where the inputs leave a bit the operation reads undriven, so that the outputs
  have "no defined outcome" and the model gives them no value (R174, D24, log entry 8) -/
  outputs : Option (Outputs 64)
deriving DecidableEq, Repr

/-- The input ports by name. -/
inductive Port where
  | op
  | lenIn
  | bIn
  | vIn
deriving DecidableEq, Repr

/-- Why an evaluation stops. -/
inductive Fault where
  /-- A bit the operation reads on this port is undriven or changes during the evaluation, so the evaluation has
  no defined outcome (R174, D24, I8). Raised by `step` for `op`, by the decode operations for `len_in` and
  `b_in` and by the encode operations for `v_in`. Safe: the spec itself asks for a fault here. -/
  | undriven (port : Port)
deriving DecidableEq, Repr

/-- Why an instruction has no meaning in the model. -/
inductive Refusal where
  /-- The instruction is not modelled. Raised by no instruction of this model: all eight have their meaning.
  Safe: the model stops. -/
  | notModelled (mnemonic : String)
deriving DecidableEq, Repr

/-- A port with every bit held. -/
def heldPort {w : Nat} (v : BitVec w) : InPort w := ⟨v, BitVec.allOnes w⟩

/-- The block with its ports first driven. There is no reset input and no reset value (R39, R170, R171): the
inputs are whatever the host drives (DESIGN CHOICE, unsafe, log entry 1: zero, every bit held), and the outputs
are EVAL of those inputs, as at any other time; `decode_u16` of a sequence of length 0 is InvalidLength. -/
def State.reset : State where
  inputs :=
    { op := heldPort Config.powerUpOp
      lenIn := heldPort Config.powerUpLen
      bIn := heldPort Config.powerUpBytes
      vIn := heldPort Config.powerUpValue }
  outputs := some { rOut := 0, bOut := 0, lenOut := 0, err := .invalidLength }

end Sys2Proof.Machine
end

