-- ==== Sys2Proof/Machine/Operands.lean ====
section
/-! DEFINITION. Operands: the integer kinds (10_state.md R33), byte order as rank (20_memory.md R41), and how an
operation reads its ports (R30 to R32, 30_encoding.md R67). -/

namespace Sys2Proof

/-- N, the number of bytes of a kind (R10, R63). -/
def Kind.bytes : Kind → Nat
  | .uint16 => 2
  | .int16 => 2
  | .uint32 => 4
  | .int32 => 4

/-- n = 8·N, the number of bits of a kind (R10, R63). -/
def Kind.bits (k : Kind) : Nat := 8 * k.bytes

/-- Whether a kind is two's complement (R33, R64). -/
def Kind.signed : Kind → Bool
  | .uint16 => false
  | .int16 => true
  | .uint32 => false
  | .int32 => true

/-- The least value of a kind (table of R33). -/
def Kind.min : Kind → Int
  | .uint16 => 0
  | .int16 => -32768
  | .uint32 => 0
  | .int32 => -2147483648

/-- The greatest value of a kind (table of R33). -/
def Kind.max : Kind → Int
  | .uint16 => 65535
  | .int16 => 32767
  | .uint32 => 4294967295
  | .int32 => 2147483647

end Sys2Proof

namespace Sys2Proof.Machine

/-- The endian_mux rank function of R41, for a sequence index `i` below `n`. -/
def rank (n : Nat) (ord : Order) (i : Nat) : Nat :=
  match ord with
  | .little => i
  | .big => n - 1 - i

/-- Every bit of the port is driven and stable (R174). -/
def InPort.allHeld {w : Nat} (p : InPort w) : Bool := decide (p.held = BitVec.allOnes w)

/-- Lane `i` of a lane word is bits 8i+7 to 8i (R30, R36). -/
def lane (b : LaneWord) (i : Nat) : Byte := b.extractLsb' (8 * i) 8

/-- Every bit of lanes 0 to n-1 of `b_in` is driven and stable (R174); the lanes above are not read (R38). -/
def lanesHeld (n : Nat) (p : InPort 32) : Bool :=
  (List.range n).all fun i => decide (lane p.held i = BitVec.allOnes 8)

/-- L = uint(len_in), the number of elements presented (R31). -/
def seqLen (s : State) : Nat := s.inputs.lenIn.value.toNat

/-- V = sint(v_in), the integer operand of an encode, always two's complement at full width (R32, R68). -/
def intOperand (s : State) : Int := s.inputs.vIn.value.toInt

end Sys2Proof.Machine
end

