-- ==== Sys2Proof/Machine/Flags.lean ====
section
/-! DEFINITION. Flags: the block has no flag and no operation writes one (10_state.md R23); what it reports is
the outcome on `err`. This file holds the codes of that output and the two checks that decide it. -/

namespace Sys2Proof.Machine

/-- What the two wires of `err` carry for each outcome (R37, table of R141). 0b11 is no outcome's code. -/
def Status.code : Status → BitVec 2
  | .ok => 0b00
  | .invalidLength => 0b01
  | .outOfRange => 0b10

/-- The length check of R82: a decode of a kind passes exactly when L is its N. -/
def lengthOk (k : Kind) (l : Nat) : Bool := decide (l = k.bytes)

/-- The range check of R110: an encode of a kind passes exactly when min ≤ V ≤ max. -/
def inRange (k : Kind) (v : Int) : Bool := decide (k.min ≤ v ∧ v ≤ k.max)

end Sys2Proof.Machine
end

