-- ==== Sys2Proof/Machine/Ops.lean ====
section
/-! DEFINITION. Ops: the shared datapath, written in exact integer arithmetic and narrowed at the ports: the
decode side (40_decode.md R80 to R83), the encode side (41_encode.md R110 to R113), and an error outcome
(60_exceptions.md R145). The bit-vector form of the same rules stands in Datapath.lean. -/

namespace Sys2Proof.Machine

/-- The assembled unsigned value U of R80: the sum over i below n of byte[i] · 2^(8·rank). -/
def assembleBytes (n : Nat) (ord : Order) (b : LaneWord) : Nat :=
  ∑ i ∈ Finset.range n, (lane b i).toNat * 2 ^ (8 * rank n ord i)

/-- SX(U, n) of R81. -/
def signExtendValue (u n : Nat) : Int :=
  if (u : Int) > 2 ^ (n - 1) - 1 then (u : Int) - 2 ^ n else (u : Int)

/-- R, the integer a decode of a kind delivers: U for the unsigned kinds, SX(U, n) for the signed (R83). -/
def decodedValue (k : Kind) (ord : Order) (b : LaneWord) : Int :=
  if k.signed then signExtendValue (assembleBytes k.bytes ord b) k.bits
  else (assembleBytes k.bytes ord b : Int)

/-- uint(P) = V mod 2^n, the two's-complement pattern of R111. -/
def patternOf (k : Kind) (v : Int) : Nat := (v % 2 ^ k.bits).toNat

/-- Element `i` of the encoded sequence: (uint(P) >> (8·rank)) & 0xFF (R112). -/
def encodedByte (n : Nat) (ord : Order) (p i : Nat) : Byte :=
  BitVec.ofNat 8 ((p >>> (8 * rank n ord i)) &&& 0xFF)

/-- A byte sequence on the lanes: element i on lane i, the other lanes 0 (R36, R113; for an input sequence, R73). -/
def packLanes (bytes : List Byte) : LaneWord :=
  bytes.getD 3 0 ++ bytes.getD 2 0 ++ bytes.getD 1 0 ++ bytes.getD 0 0

/-- The encoded sequence of R112 as a list of its N elements. -/
def encodedBytes (k : Kind) (ord : Order) (v : Int) : List Byte :=
  (List.range k.bytes).map (encodedByte k.bytes ord (patternOf k v))

/-- The ports of a failing evaluation: the code on `err`, and 0 on the other outputs (R145). This is all the
"exception" the block has: nothing is saved, nothing is entered and there is nothing to return from (R148, R149). -/
def Outputs.raised {iw : Nat} (e : Status) : Outputs iw :=
  { rOut := 0, bOut := 0, lenOut := 0, err := e }

/-- The ports after a successful decode that delivers R: trunc_IW(R) on `r_out` (R35, R83). -/
def Outputs.decoded {iw : Nat} (r : Int) : Outputs iw :=
  { rOut := BitVec.ofInt iw r, bOut := 0, lenOut := 0, err := .ok }

/-- The ports after a successful encode of a sequence: its elements on the lanes and its length (R36, R113). -/
def Outputs.encoded {iw : Nat} (bytes : List Byte) : Outputs iw :=
  { rOut := 0, bOut := packLanes bytes, lenOut := BitVec.ofNat 3 bytes.length, err := .ok }

/-- The block drives its output ports; the input ports are the host's (R28, R49). -/
def State.drive (s : State) (o : Outputs 64) : State := { s with outputs := some o }

/-- A decode evaluation. The length is checked first (R82) and reads `len_in` alone (R142), so the lanes are
read, and must be held (R174), only when it passes (DEDUCED, log entry 3). -/
def evalDecode (k : Kind) (ord : Order) (s : State) : Host.Outcome State Fault Refusal :=
  if s.inputs.lenIn.allHeld then
    if lengthOk k (seqLen s) then
      if lanesHeld k.bytes s.inputs.bIn then
        .next (s.drive (.decoded (decodedValue k ord s.inputs.bIn.value)))
      else .fault (.undriven .bIn)
    else .next (s.drive (.raised .invalidLength))
  else .fault (.undriven .lenIn)

/-- An encode evaluation. The range check reads all IW bits of `v_in` (R110), so all of them must be held (R174). -/
def evalEncode (k : Kind) (ord : Order) (s : State) : Host.Outcome State Fault Refusal :=
  if s.inputs.vIn.allHeld then
    if inRange k (intOperand s) then .next (s.drive (.encoded (encodedBytes k ord (intOperand s))))
    else .next (s.drive (.raised .outOfRange))
  else .fault (.undriven .vIn)

end Sys2Proof.Machine
end

