-- ==== Sys2Proof/Machine/DecodeFamily.lean ====
section
/-! DEFINITION. DecodeFamily: the four decode operations (40_decode.md R84 to R87), each over the shared decode
evaluation. -/

namespace Sys2Proof.Machine

/-- `decode_u16` (R84). -/
def execDecodeU16 (ord : Order) (s : State) : Host.Outcome State Fault Refusal := evalDecode .uint16 ord s

/-- `decode_i16` (R85). -/
def execDecodeI16 (ord : Order) (s : State) : Host.Outcome State Fault Refusal := evalDecode .int16 ord s

/-- `decode_u32` (R86). -/
def execDecodeU32 (ord : Order) (s : State) : Host.Outcome State Fault Refusal := evalDecode .uint32 ord s

/-- `decode_i32` (R87). -/
def execDecodeI32 (ord : Order) (s : State) : Host.Outcome State Fault Refusal := evalDecode .int32 ord s

end Sys2Proof.Machine
end

