-- ==== Sys2Proof/Machine/EncodeFamily.lean ====
section
/-! DEFINITION. EncodeFamily: the four encode operations (41_encode.md R114 to R117), each over the shared encode
evaluation. -/

namespace Sys2Proof.Machine

/-- `encode_u16`, written `encode_uint16` too (R114, R72). -/
def execEncodeU16 (ord : Order) (s : State) : Host.Outcome State Fault Refusal := evalEncode .uint16 ord s

/-- `encode_i16` (R115). -/
def execEncodeI16 (ord : Order) (s : State) : Host.Outcome State Fault Refusal := evalEncode .int16 ord s

/-- `encode_u32` (R116). -/
def execEncodeU32 (ord : Order) (s : State) : Host.Outcome State Fault Refusal := evalEncode .uint32 ord s

/-- `encode_i32` (R117). -/
def execEncodeI32 (ord : Order) (s : State) : Host.Outcome State Fault Refusal := evalEncode .int32 ord s

end Sys2Proof.Machine
end

