-- ==== Sys2Proof/Machine/Dispatch.lean ====
section
/-! DEFINITION. Dispatch: one arm per operation (30_encoding.md R74). -/

namespace Sys2Proof.Machine

def exec (i : Instr) (s : State) : Host.Outcome State Fault Refusal :=
  match i with
  | .decodeU16 ord => Sys2Proof.Machine.execDecodeU16 ord s
  | .decodeI16 ord => Sys2Proof.Machine.execDecodeI16 ord s
  | .decodeU32 ord => Sys2Proof.Machine.execDecodeU32 ord s
  | .decodeI32 ord => Sys2Proof.Machine.execDecodeI32 ord s
  | .encodeU16 ord => Sys2Proof.Machine.execEncodeU16 ord s
  | .encodeI16 ord => Sys2Proof.Machine.execEncodeI16 ord s
  | .encodeU32 ord => Sys2Proof.Machine.execEncodeU32 ord s
  | .encodeI32 ord => Sys2Proof.Machine.execEncodeI32 ord s

end Sys2Proof.Machine
end

