-- ==== Sys2Proof/WellFormed.lean ====
section
/-! DEFINITION. WellFormed: every operation word is legal (30_encoding.md R69), so every instruction is well
formed; a textual call is well formed when it can be presented on the ports (R30 to R32, R73). -/

namespace Sys2Proof

/-- Every operation is legal under both byte orders (R66, R69): no operand of an instruction can be ill formed. -/
def Instr.wf : Instr → Bool
  | .decodeU16 _ => true
  | .decodeI16 _ => true
  | .decodeU32 _ => true
  | .decodeI32 _ => true
  | .encodeU16 _ => true
  | .encodeI16 _ => true
  | .encodeU32 _ => true
  | .encodeI32 _ => true

/-- A list of 2^LW or more elements cannot be assembled (R31, R73); LW is 8. -/
def lengthPresentable (bytes : List Nat) : Bool := decide (bytes.length < 256)

/-- Each element of a byte sequence is 0 to 255 (R14). -/
def elementsAreBytes (bytes : List Nat) : Bool := bytes.all fun b => decide (b < 256)

/-- An integer outside the IW-bit two's-complement range, -2^63 to 2^63 - 1 with IW = 64, cannot be assembled
(R32, R73). -/
def valuePresentable (v : Int) : Bool := decide (-9223372036854775808 ≤ v ∧ v ≤ 9223372036854775807)

/-- The calls the host can put on the ports (R73). -/
def Call.wf : Call → Bool
  | .decode _ bytes _ => lengthPresentable bytes && elementsAreBytes bytes
  | .encode _ v _ => valuePresentable v

end Sys2Proof
end

