-- ==== Sys2Proof/Decode.lean ====
section
/-! DEFINITION. Decode: the operation word to an instruction (30_encoding.md R60 to R66, R74) and the encoder
beside it, both written from the opcode map of R66. -/

namespace Sys2Proof

/-- ORD, bit 0: 0 is Little and 1 is Big (R65). -/
def orderField (w : OpWord) : Order := if w.getLsbD 0 then .big else .little

/-- The operation word's meaning: DIR is bit 3, W is bit 2 and S is bit 1 (R61), exhaustive over the eight
values of `op[3:1]` (R66, R74), so no word is refused (R69). -/
def decode (w : OpWord) : Instr :=
  match w.getLsbD 3, w.getLsbD 2, w.getLsbD 1 with
  | false, false, false => .decodeU16 (orderField w)
  | false, false, true => .decodeI16 (orderField w)
  | false, true, false => .decodeU32 (orderField w)
  | false, true, true => .decodeI32 (orderField w)
  | true, false, false => .encodeU16 (orderField w)
  | true, false, true => .encodeI16 (orderField w)
  | true, true, false => .encodeU32 (orderField w)
  | true, true, true => .encodeI32 (orderField w)

/-- Why a string of bytes is not one operation word. The word is exactly 4 bits with no prefix and no extension
word (R60, R70). -/
inductive DecodeReject where
  /-- no byte at all: nothing is on the `op` port. -/
  | noWord
  /-- a bit above bit 3 is set: `op` has no such bit (R60). -/
  | bitAboveOp
  /-- a second byte: no extension word exists (R60, R70). -/
  | extraBytes
deriving DecidableEq, Repr

/-- Decoding of any bytes, total. One byte whose high four bits are clear carries the 4-bit word in `op[3:0]`;
this byte form is the table interface's, not a fetch (log entry 6). -/
def decodeBytes : List Byte → Except DecodeReject Instr
  | [] => .error .noWord
  | [b] => if b.toNat < 16 then .ok (decode (b.setWidth 4)) else .error .bitAboveOp
  | _ :: _ :: _ => .error .extraBytes

/-- The ORD bit of an order (R65). -/
def orderBit : Order → BitVec 1
  | .little => 0#1
  | .big => 1#1

/-- The operation word of an instruction: the match value of R66 in bits 3 to 1, ORD in bit 0. -/
def encode : Instr → OpWord
  | .decodeU16 o => 0b000#3 ++ orderBit o
  | .decodeI16 o => 0b001#3 ++ orderBit o
  | .decodeU32 o => 0b010#3 ++ orderBit o
  | .decodeI32 o => 0b011#3 ++ orderBit o
  | .encodeU16 o => 0b100#3 ++ orderBit o
  | .encodeI16 o => 0b101#3 ++ orderBit o
  | .encodeU32 o => 0b110#3 ++ orderBit o
  | .encodeI32 o => 0b111#3 ++ orderBit o

/-- The operation word as one byte, its high four bits clear. -/
def encodeBytes (i : Instr) : List Byte := [(encode i).setWidth 8]

/-- The low `n` bytes of a number, least significant first. -/
def wordBytes (n w : Nat) : List Byte := (List.range n).map fun i => BitVec.ofNat 8 (w / 2 ^ (8 * i))

/-- The decoder's answer for a table word `w` of `nbits` bits, bit 0 the least significant (log entry 6). -/
def decodeTableWord (nbits w : Nat) : Option Instr :=
  if w < 2 ^ nbits then (decodeBytes (wordBytes ((nbits + 7) / 8) w)).toOption else none

/-- The decode operation of a kind and an order (R62 to R66 with DIR = 0). -/
def decodeOf : Kind → Order → Instr
  | .uint16, o => .decodeU16 o
  | .int16, o => .decodeI16 o
  | .uint32, o => .decodeU32 o
  | .int32, o => .decodeI32 o

/-- The encode operation of a kind and an order (R62 to R66 with DIR = 1). -/
def encodeOf : Kind → Order → Instr
  | .uint16, o => .encodeU16 o
  | .int16, o => .encodeI16 o
  | .uint32, o => .encodeU32 o
  | .int32, o => .encodeI32 o

/-- The direction an operation's DIR field selects (R62). -/
def Instr.direction : Instr → Direction
  | .decodeU16 _ => .decode
  | .decodeI16 _ => .decode
  | .decodeU32 _ => .decode
  | .decodeI32 _ => .decode
  | .encodeU16 _ => .encode
  | .encodeI16 _ => .encode
  | .encodeU32 _ => .encode
  | .encodeI32 _ => .encode

/-- The kind an operation's W and S fields select (R63, R64). -/
def Instr.kind : Instr → Kind
  | .decodeU16 _ => .uint16
  | .decodeI16 _ => .int16
  | .decodeU32 _ => .uint32
  | .decodeI32 _ => .int32
  | .encodeU16 _ => .uint16
  | .encodeI16 _ => .int16
  | .encodeU32 _ => .uint32
  | .encodeI32 _ => .int32

/-- The byte order an operation's ORD field selects (R65). -/
def Instr.order : Instr → Order
  | .decodeU16 o => o
  | .decodeI16 o => o
  | .decodeU32 o => o
  | .decodeI32 o => o
  | .encodeU16 o => o
  | .encodeI16 o => o
  | .encodeU32 o => o
  | .encodeI32 o => o

end Sys2Proof
end

