-- ==== Sys2Proof/Machine/Fetch.lean ====
section
/-! DEFINITION. Fetch: how the block takes its operation word. Nothing is fetched from a memory: the word is the
value of the `op` port (20_memory.md R53, 10_state.md R22). -/

namespace Sys2Proof.Machine

/-- The operation on the `op` port, or none where one of its four bits, which every operation reads (R29), is not
held (R174). -/
def presentedOp (s : State) : Option Instr :=
  if s.inputs.op.allHeld then some (decode s.inputs.op.value) else none

end Sys2Proof.Machine
end

