-- ==== Sys2Proof/Machine/Evaluate.lean ====
section
/-! DEFINITION. Evaluate: the evaluation (10_state.md R28), and the output ports following the input ports. The block
is combinational: every output is EVAL of the current inputs at all times (R39, D1, D13), so whatever puts new values
on the input ports ends by settling the output ports. -/

namespace Sys2Proof.Machine

/-- One evaluation: the operation on the `op` port runs, with nothing around it. -/
def evaluate (s : State) : Host.Outcome State Fault Refusal :=
  match presentedOp s with
  | some i => exec i s
  | none => .fault (.undriven .op)

/-- The output ports follow the input ports (R39). Where the evaluation has no defined outcome, no output has a
value (R174, log entry 8). -/
def State.settle (s : State) : State :=
  match evaluate s with
  | .next t => t
  | .fault _ => { s with outputs := none }
  | .refused _ => { s with outputs := none }

/-- The host puts new values on all four input ports (R29), and the output ports follow them (R39). -/
def State.present (s : State) (ins : Inputs) : State := State.settle { s with inputs := ins }

/-- The host drives a table word on `op`, every bit held, and leaves the other input ports as they are; the output
ports follow (R39, log entry 6). -/
def driveOpWord (s : State) (w : Nat) : State :=
  s.present { s.inputs with op := heldPort (BitVec.ofNat 4 w) }

end Sys2Proof.Machine
end

