-- ==== Sys2Proof/Machine/Step.lean ====
section
/-! DEFINITION. Step: the one kind of step the block has, the evaluation (10_state.md R28). There is no pc to advance
(R22). -/

namespace Sys2Proof.Machine

/-- One evaluation. -/
def step (s : State) : Host.Outcome State Fault Refusal := evaluate s

/-- `s` with the table word `w` on the `op` port, so that the next step runs it (log entry 6). -/
def State.withFetchWord (s : State) (_nbits w : Nat) : State := driveOpWord s w

end Sys2Proof.Machine
end

