-- ==== Sys2Proof/Machine/Assembler.lean ====
section
/-! DEFINITION. Assembler: the textual form of an operation, its aliases, and its assembly onto the ports
(30_encoding.md R71 to R73). -/

namespace Sys2Proof.Machine

/-- Why a text is refused by name (R72, R73, D17). -/
inductive AsmRefusal where
  /-- a character or a number the form does not have -/
  | badToken
  /-- a mnemonic that is none of the eight names nor `encode_uint16` (R71, R72) -/
  | unknownMnemonic
  /-- the tokens are not of the form `mnemonic(operand, order)` (R71) -/
  | malformedCall
  /-- an element of a byte list outside 0 to 255 (R14) -/
  | notAByte
  /-- an order that is neither `Little` nor `Big` (R71) -/
  | unknownOrder
  /-- a list of 2^LW or more elements (R31, R73) -/
  | lengthNotPresentable
  /-- an integer outside the IW-bit range (R32, R73) -/
  | valueNotPresentable
deriving DecidableEq, Repr

/-- The tokens of a call. -/
inductive Tok where
  /-- a name -/
  | word (cs : List Char)
  /-- a decimal or `0x`-hex number without a sign -/
  | nat (n : Nat)
  /-- a decimal number after a minus sign -/
  | neg (n : Nat)
  /-- one of `(`, `)`, `[`, `]`, `,` and `=` -/
  | sym (c : Char)
deriving DecidableEq, Repr

/-- The value of a decimal digit. -/
def decDigit (c : Char) : Option Nat :=
  if '0' ≤ c ∧ c ≤ '9' then some (c.toNat - '0'.toNat) else none

/-- The value of a hexadecimal digit. The spec writes its `0x`-hex numbers in upper case (R14, R71) and says nothing
of the letters' case; the model takes `a` to `f` as well as `A` to `F` (DESIGN CHOICE, unsafe, log entry 7). -/
def hexDigit (c : Char) : Option Nat :=
  if '0' ≤ c ∧ c ≤ '9' then some (c.toNat - '0'.toNat)
  else if 'a' ≤ c ∧ c ≤ 'f' then some (c.toNat - 'a'.toNat + 10)
  else if 'A' ≤ c ∧ c ≤ 'F' then some (c.toNat - 'A'.toNat + 10)
  else none

/-- The digits after the first; `_` between two digits only groups them (R12, log entry 7). -/
def digitsFrom (base : Nat) (digit : Char → Option Nat) (acc : Nat) : List Char → Option Nat
  | [] => some acc
  | '_' :: c :: cs => (digit c).bind fun d => digitsFrom base digit (acc * base + d) cs
  | c :: cs => (digit c).bind fun d => digitsFrom base digit (acc * base + d) cs

/-- A non-empty string of digits. -/
def digitsValue (base : Nat) (digit : Char → Option Nat) : List Char → Option Nat
  | [] => none
  | c :: cs => (digit c).bind fun d => digitsFrom base digit d cs

/-- A number: decimal, `0x`-hex, or a minus sign and decimal (R71, log entry 7). -/
def numberTok : List Char → Option Tok
  | '-' :: cs => (digitsValue 10 decDigit cs).map .neg
  | '0' :: 'x' :: cs => (digitsValue 16 hexDigit cs).map .nat
  | cs => (digitsValue 10 decDigit cs).map .nat

/-- The characters of names and numbers. -/
def isWordChar (c : Char) : Bool := c.isAlphanum || c == '_' || c == '-'

/-- A run of word characters, put before the tokens after it; no token for an empty run. -/
def flushRun (run : List Char) (rest : Option (List Tok)) : Option (List Tok) :=
  match run with
  | [] => rest
  | c :: cs =>
    if c.isDigit || c == '-' then (numberTok (c :: cs)).bind fun t => rest.map (t :: ·)
    else rest.map (.word (c :: cs) :: ·)

/-- The tokens of a text, given the run of word characters read so far. Spaces between tokens mean nothing
(log entry 7). -/
def lexFrom (run : List Char) : List Char → Option (List Tok)
  | [] => flushRun run (some [])
  | c :: cs =>
    if isWordChar c then lexFrom (run ++ [c]) cs
    else if c == ' ' then flushRun run (lexFrom [] cs)
    else if "()[],=".toList.contains c then flushRun run ((lexFrom [] cs).map (.sym c :: ·))
    else none

/-- The name of an operation (R66). -/
def mnemonicText : Direction → Kind → List Char
  | .decode, .uint16 => "decode_u16".toList
  | .decode, .int16 => "decode_i16".toList
  | .decode, .uint32 => "decode_u32".toList
  | .decode, .int32 => "decode_i32".toList
  | .encode, .uint16 => "encode_u16".toList
  | .encode, .int16 => "encode_i16".toList
  | .encode, .uint32 => "encode_u32".toList
  | .encode, .int32 => "encode_i32".toList

/-- The eight names of R66 and the one alias of a mnemonic, `encode_uint16` (R72, 90_conflicts.md C1). -/
def mnemonicTable : List (List Char × Direction × Kind) :=
  [ (mnemonicText .decode .uint16, .decode, .uint16), (mnemonicText .decode .int16, .decode, .int16),
    (mnemonicText .decode .uint32, .decode, .uint32), (mnemonicText .decode .int32, .decode, .int32),
    (mnemonicText .encode .uint16, .encode, .uint16), (mnemonicText .encode .int16, .encode, .int16),
    (mnemonicText .encode .uint32, .encode, .uint32), (mnemonicText .encode .int32, .encode, .int32),
    ("encode_uint16".toList, .encode, .uint16) ]

/-- The operation a name stands for; any other spelling is refused (R72). -/
def readMnemonic (cs : List Char) : Option (Direction × Kind) := mnemonicTable.lookup cs

/-- The name of an order (R71). -/
def orderText : Order → List Char
  | .little => "Little".toList
  | .big => "Big".toList

/-- The order a word names (R71). -/
def readOrder (cs : List Char) : Except AsmRefusal Order :=
  if cs = orderText .little then .ok .little
  else if cs = orderText .big then .ok .big
  else .error .unknownOrder

/-- Drops the keyword spelling `key=` before an operand (R71). -/
def dropKeyword (key : List Char) : List Tok → List Tok
  | .word w :: .sym '=' :: rest => if w = key then rest else .word w :: .sym '=' :: rest
  | rest => rest

/-- The elements of a non-empty list, after its opening bracket, and the tokens after its closing one. -/
def readElements : List Tok → Option (List Nat × List Tok)
  | .nat n :: .sym ']' :: rest => some ([n], rest)
  | .nat n :: .sym ',' :: rest => (readElements rest).map fun p => (n :: p.1, p.2)
  | _ => none

/-- A bracketed list of byte values, which may be empty (R71). -/
def readByteList : List Tok → Option (List Nat × List Tok)
  | .sym '[' :: .sym ']' :: rest => some ([], rest)
  | .sym '[' :: rest => readElements rest
  | _ => none

/-- A signed integer (R71). -/
def readValue : List Tok → Option (Int × List Tok)
  | .nat n :: rest => some ((n : Int), rest)
  | .neg n :: rest => some (-(n : Int), rest)
  | _ => none

/-- The end of a call: an absent order means Little; `order=` and its alias `endianness=` are accepted (R71, R72). -/
def readOrderEnd : List Tok → Except AsmRefusal Order
  | [.sym ')'] => .ok .little
  | [.sym ',', .word o, .sym ')'] => readOrder o
  | [.sym ',', .word k, .sym '=', .word o, .sym ')'] =>
    if k = "order".toList ∨ k = "endianness".toList then readOrder o else .error .malformedCall
  | _ => .error .malformedCall

/-- The rest of a decode call after its opening parenthesis. -/
def readDecodeCall (k : Kind) (ts : List Tok) : Except AsmRefusal Call :=
  match readByteList (dropKeyword "bytes".toList ts) with
  | none => .error .malformedCall
  | some (bytes, rest) =>
    if elementsAreBytes bytes then (readOrderEnd rest).map (Call.decode k bytes) else .error .notAByte

/-- The rest of an encode call after its opening parenthesis. -/
def readEncodeCall (k : Kind) (ts : List Tok) : Except AsmRefusal Call :=
  match readValue (dropKeyword "value".toList ts) with
  | none => .error .malformedCall
  | some (v, rest) => (readOrderEnd rest).map (Call.encode k v)

/-- A call from its tokens: `mnemonic(operand, order)` (R71). -/
def readCall : List Tok → Except AsmRefusal Call
  | .word m :: .sym '(' :: rest =>
    match readMnemonic m with
    | none => .error .unknownMnemonic
    | some (.decode, k) => readDecodeCall k rest
    | some (.encode, k) => readEncodeCall k rest
  | _ => .error .malformedCall

/-- A call from its text (R71, R72). -/
def readText (cs : List Char) : Except AsmRefusal Call :=
  match lexFrom [] cs with
  | none => .error .badToken
  | some ts => readCall ts

/-- The elements of a list, as `readElements` reads them. -/
def elementToks : List Nat → List Tok
  | [] => []
  | [n] => [.nat n, .sym ']']
  | n :: rest => .nat n :: .sym ',' :: elementToks rest

/-- A bracketed list, as `readByteList` reads it. -/
def byteListToks : List Nat → List Tok
  | [] => [.sym '[', .sym ']']
  | bytes => .sym '[' :: elementToks bytes

/-- A signed integer, as `readValue` reads it. -/
def valueTok : Int → Tok
  | .ofNat n => .nat n
  | .negSucc n => .neg (n + 1)

/-- A call's operand in its canonical spelling (R71). -/
def callOperandToks : Call → List Tok
  | .decode _ bytes _ => byteListToks bytes
  | .encode _ v _ => [valueTok v]

/-- A call's name (R66). -/
def callNameText : Call → List Char
  | .decode k _ _ => mnemonicText .decode k
  | .encode k _ _ => mnemonicText .encode k

/-- A call's order. -/
def callOrder : Call → Order
  | .decode _ _ o => o
  | .encode _ _ o => o

/-- The canonical spelling of a call as tokens: `mnemonic(operand, order)` (R71). -/
def callToks (c : Call) : List Tok :=
  .word (callNameText c) :: .sym '(' ::
    (callOperandToks c ++ [.sym ',', .word (orderText (callOrder c)), .sym ')'])

/-- The operation a call names (R66, R71). -/
def callInstr : Call → Instr
  | .decode k _ o => decodeOf k o
  | .encode k _ o => encodeOf k o

/-- A call on the ports (R73). Lanes with no element are 0 by R73's convention; the ports the operation does not
read carry 0, as the vectors of 95_test_vectors.md drive them (log entry 7). -/
def assembleCall (c : Call) : Except AsmRefusal Inputs :=
  match c with
  | .decode _ bytes _ =>
    if !lengthPresentable bytes then .error .lengthNotPresentable
    else if !elementsAreBytes bytes then .error .notAByte
    else .ok
      { op := heldPort (encode (callInstr c))
        lenIn := heldPort (BitVec.ofNat 8 bytes.length)
        bIn := heldPort (packLanes ((bytes.take 4).map (BitVec.ofNat 8)))
        vIn := heldPort 0 }
  | .encode _ v _ =>
    if !valuePresentable v then .error .valueNotPresentable
    else .ok
      { op := heldPort (encode (callInstr c))
        lenIn := heldPort 0
        bIn := heldPort 0
        vIn := heldPort (BitVec.ofInt 64 v) }

/-- A text on the ports (R71 to R73). -/
def assembleText (cs : List Char) : Except AsmRefusal Inputs := (readText cs).bind assembleCall

end Sys2Proof.Machine
end

