-- ==== Sys2Proof/Machine/Datapath.lean ====
section
/-! DEFINITION. Datapath: EVAL, the block's one total function from input ports to output ports (10_state.md R28),
as the spec's pseudocode gives it: the dispatch of 30_encoding.md R74 and the bit-vector bodies of R84 to R87 and
R114 to R117. It is a second transcription of the rules beside Ops.lean, and the obligations say that the two
agree. It is generic in IW and LW, which R9 and D27 leave a parameter. -/

namespace Sys2Proof.Machine

/-- U as a 16-bit vector (table of R80). -/
def mux16 (big : Bool) (b : LaneWord) : BitVec 16 :=
  let b0 := b.extractLsb 7 0
  let b1 := b.extractLsb 15 8
  if big then b0 ++ b1 else b1 ++ b0

/-- U as a 32-bit vector (table of R80). -/
def mux32 (big : Bool) (b : LaneWord) : BitVec 32 :=
  let b0 := b.extractLsb 7 0
  let b1 := b.extractLsb 15 8
  let b2 := b.extractLsb 23 16
  let b3 := b.extractLsb 31 24
  if big then b0 ++ b1 ++ b2 ++ b3 else b3 ++ b2 ++ b1 ++ b0

/-- The lanes of a 16-bit pattern, lanes 2 and 3 zero (table of R112). -/
def demux16 (big : Bool) (p : BitVec 16) : LaneWord :=
  if big then (p.extractLsb 7 0 ++ p.extractLsb 15 8).setWidth 32
  else (p.extractLsb 15 8 ++ p.extractLsb 7 0).setWidth 32

/-- The lanes of a 32-bit pattern (table of R112). -/
def demux32 (big : Bool) (p : BitVec 32) : LaneWord :=
  if big then p.extractLsb 7 0 ++ p.extractLsb 15 8 ++ p.extractLsb 23 16 ++ p.extractLsb 31 24 else p

/-- DECODE(N, signed, ord) of R74 with the bodies of R84 to R87. -/
def datapathDecode {iw lw : Nat} (wide signed big : Bool) (lenIn : BitVec lw) (bIn : LaneWord) : Outputs iw :=
  if lenIn.toNat ≠ (if wide then 4 else 2) then { rOut := 0, bOut := 0, lenOut := 0, err := .invalidLength }
  else
    let r : BitVec iw :=
      match wide, signed with
      | false, false => (mux16 big bIn).setWidth iw
      | false, true => (mux16 big bIn).signExtend iw
      | true, false => (mux32 big bIn).setWidth iw
      | true, true => (mux32 big bIn).signExtend iw
    { rOut := r, bOut := 0, lenOut := 0, err := .ok }

/-- ENCODE(N, signed, ord) of R74 with the bodies of R114 to R117. -/
def datapathEncode {iw : Nat} (wide signed big : Bool) (vIn : BitVec iw) : Outputs iw :=
  let v := vIn.toInt
  let fits : Bool :=
    match wide, signed with
    | false, false => decide (0 ≤ v ∧ v ≤ 65535)
    | false, true => decide (-32768 ≤ v ∧ v ≤ 32767)
    | true, false => decide (0 ≤ v ∧ v ≤ 4294967295)
    | true, true => decide (-2147483648 ≤ v ∧ v ≤ 2147483647)
  if fits then
    { rOut := 0
      bOut := if wide then demux32 big (vIn.setWidth 32) else demux16 big (vIn.setWidth 16)
      lenOut := if wide then 4 else 2
      err := .ok }
  else { rOut := 0, bOut := 0, lenOut := 0, err := .outOfRange }

/-- EVAL (R28, R74): DIR is `op[3]`, W is `op[2]`, S is `op[1]`, ORD is `op[0]` (R61). -/
def datapathEval {iw lw : Nat} (op : OpWord) (lenIn : BitVec lw) (bIn : LaneWord) (vIn : BitVec iw) : Outputs iw :=
  if op.getLsbD 3 then datapathEncode (op.getLsbD 2) (op.getLsbD 1) (op.getLsbD 0) vIn
  else datapathDecode (op.getLsbD 2) (op.getLsbD 1) (op.getLsbD 0) lenIn bIn

/-- EVAL of a state's input ports. -/
def State.evalInputs (s : State) : Outputs 64 :=
  datapathEval s.inputs.op.value s.inputs.lenIn.value s.inputs.bIn.value s.inputs.vIn.value

end Sys2Proof.Machine
end

