-- ==== Sys2Proof/Machine/HostDrive.lean ====
section
/-! DEFINITION. HostDrive: the host's side of the ports. A program is a host-driven list of evaluations
(92_eei_decisions.md D19), and any number of blocks may stand side by side (60_exceptions.md R154). -/

namespace Sys2Proof.Machine

/-- What the host sees of an outcome: the output ports, or why there are none. -/
def observed : Host.Outcome State Fault Refusal → Except (Fault ⊕ Refusal) (Option (Outputs 64))
  | .next s => .ok s.outputs
  | .fault f => .error (.inl f)
  | .refused r => .error (.inr r)

/-- What the host sees, evaluation by evaluation, when it presents a list of inputs (R22, D19). -/
def hostTrace (s : State) : List Inputs → List (Except (Fault ⊕ Refusal) (Option (Outputs 64)))
  | [] => []
  | ins :: rest => observed (step (s.present ins)) :: hostTrace (s.present ins) rest

/-- The host presents new inputs to the block at place `k` among several blocks (R51, R154), and that block's outputs
follow them (R39). Blocks have no identifiers: a place in the list is the host's. At a place with no block nothing
happens. -/
def presentBlock (k : Nat) (ins : Inputs) (blocks : List State) : List State :=
  blocks.modify k fun s => s.present ins

end Sys2Proof.Machine
end

