-- ==== Sys2Proof/Safety.lean ====
section
/-! DEFINITION. Safety: the terms the obligations use for a good evaluation: driven inputs, output ports that
obey 10_state.md R35 to R37 and 60_exceptions.md R145, ports that stand at EVAL, and which inputs an operation
reads. -/

namespace Sys2Proof.Machine

/-- Every input bit is driven and stable (R174). -/
def Inputs.fullyHeld (ins : Inputs) : Bool :=
  ins.op.allHeld && ins.lenIn.allHeld && ins.bIn.allHeld && ins.vIn.allHeld

/-- Every bit an operation reads on its operand ports is driven and stable (R38, R174): `len_in` and, when the
length is right, lanes 0 to N-1 for a decode (log entry 3); `v_in` for an encode. -/
def operandsHeld (i : Instr) (ins : Inputs) : Bool :=
  match i.direction with
  | .decode => ins.lenIn.allHeld && (ins.lenIn.value.toNat != i.kind.bytes || lanesHeld i.kind.bytes ins.bIn)
  | .encode => ins.vIn.allHeld

/-- Two sets of inputs agree on everything an operation reads (R38): for a decode, `len_in` and lanes 0 to N-1;
for an encode, `v_in`. The `op` port is not compared: the operation is named. -/
def agreeOnRead (i : Instr) (a b : Inputs) : Prop :=
  match i.direction with
  | .decode =>
    a.lenIn = b.lenIn ∧
      ∀ j, j < i.kind.bytes → lane a.bIn.value j = lane b.bIn.value j ∧ lane a.bIn.held j = lane b.bIn.held j
  | .encode => a.vIn = b.vIn

/-- What `len_out`, `b_out` and `r_out` may carry beside each `err` (R35, R36, R145): on an error all three are 0;
on success either `len_out` and `b_out` are 0 and `r_out` lies in the range of some kind, or `len_out` is 2 or 4,
the lanes at and above it are 0, and `r_out` is 0. -/
def Outputs.legal (o : Outputs 64) : Prop :=
  if o.err = .ok then
    (o.lenOut = 0 ∧ o.bOut = 0 ∧ -2147483648 ≤ o.rOut.toInt ∧ o.rOut.toInt ≤ 4294967295) ∨
      (o.rOut = 0 ∧ (o.lenOut = 4 ∨ (o.lenOut = 2 ∧ lane o.bOut 2 = 0 ∧ lane o.bOut 3 = 0)))
  else o.rOut = 0 ∧ o.bOut = 0 ∧ o.lenOut = 0

/-- Every bit the evaluation of these inputs reads is driven and stable (R174): all of `op` (log entry 2) and what the
operation on it reads. -/
def Inputs.evaluable (ins : Inputs) : Bool := ins.op.allHeld && operandsHeld (decode ins.op.value) ins

/-- The output ports stand at EVAL of the input ports (R28, R39, R171), or have no value where the evaluation has no
defined outcome (R174, log entry 8). -/
def State.settled (s : State) : Prop :=
  s.outputs = if s.inputs.evaluable then some s.evalInputs else none

end Sys2Proof.Machine
end

