-- ==== Sys2Proof/Certificates/Slice0/Obligations.lean ====
section
/-! DEFINITION. Obligations: the statements about endian_mux for the provers, each from a numbered rule or section
of spec/. Every statement about an instruction's result gives the whole next state, so it is also that
instruction's completion and its frame: the input ports stay as they were and all four output ports are given. -/

open Sys2Proof
open Sys2Proof.Machine

/-! ### The decode operations (40_decode.md) -/

/-- R84, `decode_u16`, whole: its two operation words, the length error, the result, its range. `v_in` and lanes
2 and 3 are not constrained: they are not read. -/
def Obligations.DecodeU16ZeroExtendsTwoBytes : Prop :=
  decode 0x0#4 = .decodeU16 .little ∧ decode 0x1#4 = .decodeU16 .big ∧
  ∀ (ord : Order) (s : State), s.inputs.lenIn.allHeld = true → lanesHeld 2 s.inputs.bIn = true →
    (seqLen s ≠ 2 → exec (.decodeU16 ord) s =
      .next { s with outputs := some { rOut := 0, bOut := 0, lenOut := 0, err := .invalidLength } }) ∧
    (seqLen s = 2 → ∃ r : IntWord,
      exec (.decodeU16 ord) s = .next { s with outputs := some { rOut := r, bOut := 0, lenOut := 0, err := .ok } } ∧
      r = (match ord with
        | .little => lane s.inputs.bIn.value 1 ++ lane s.inputs.bIn.value 0
        | .big => lane s.inputs.bIn.value 0 ++ lane s.inputs.bIn.value 1 : BitVec 16).setWidth 64 ∧
      0 ≤ r.toInt ∧ r.toInt ≤ 65535)

/-- R85, `decode_i16`, whole: the 16 bits of R84, sign-extended; R is U less 65536 when U exceeds 32767. -/
def Obligations.DecodeI16SignExtendsTwoBytes : Prop :=
  decode 0x2#4 = .decodeI16 .little ∧ decode 0x3#4 = .decodeI16 .big ∧
  ∀ (ord : Order) (s : State), s.inputs.lenIn.allHeld = true → lanesHeld 2 s.inputs.bIn = true →
    (seqLen s ≠ 2 → exec (.decodeI16 ord) s =
      .next { s with outputs := some { rOut := 0, bOut := 0, lenOut := 0, err := .invalidLength } }) ∧
    (seqLen s = 2 → ∃ (u : BitVec 16) (r : IntWord),
      exec (.decodeI16 ord) s = .next { s with outputs := some { rOut := r, bOut := 0, lenOut := 0, err := .ok } } ∧
      u = (match ord with
        | .little => lane s.inputs.bIn.value 1 ++ lane s.inputs.bIn.value 0
        | .big => lane s.inputs.bIn.value 0 ++ lane s.inputs.bIn.value 1) ∧
      r = u.signExtend 64 ∧
      r.toInt = (if u.toNat > 32767 then (u.toNat : Int) - 65536 else u.toNat) ∧
      -32768 ≤ r.toInt ∧ r.toInt ≤ 32767)

/-- R86, `decode_u32`, whole. The Big order reverses all four bytes. -/
def Obligations.DecodeU32ZeroExtendsFourBytes : Prop :=
  decode 0x4#4 = .decodeU32 .little ∧ decode 0x5#4 = .decodeU32 .big ∧
  ∀ (ord : Order) (s : State), s.inputs.lenIn.allHeld = true → lanesHeld 4 s.inputs.bIn = true →
    (seqLen s ≠ 4 → exec (.decodeU32 ord) s =
      .next { s with outputs := some { rOut := 0, bOut := 0, lenOut := 0, err := .invalidLength } }) ∧
    (seqLen s = 4 → ∃ r : IntWord,
      exec (.decodeU32 ord) s = .next { s with outputs := some { rOut := r, bOut := 0, lenOut := 0, err := .ok } } ∧
      r = (match ord with
        | .little => lane s.inputs.bIn.value 3 ++ lane s.inputs.bIn.value 2 ++ lane s.inputs.bIn.value 1 ++
            lane s.inputs.bIn.value 0
        | .big => lane s.inputs.bIn.value 0 ++ lane s.inputs.bIn.value 1 ++ lane s.inputs.bIn.value 2 ++
            lane s.inputs.bIn.value 3 : BitVec 32).setWidth 64 ∧
      0 ≤ r.toInt ∧ r.toInt ≤ 4294967295)

/-- R87, `decode_i32`, whole: the 32 bits of R86, sign-extended. -/
def Obligations.DecodeI32SignExtendsFourBytes : Prop :=
  decode 0x6#4 = .decodeI32 .little ∧ decode 0x7#4 = .decodeI32 .big ∧
  ∀ (ord : Order) (s : State), s.inputs.lenIn.allHeld = true → lanesHeld 4 s.inputs.bIn = true →
    (seqLen s ≠ 4 → exec (.decodeI32 ord) s =
      .next { s with outputs := some { rOut := 0, bOut := 0, lenOut := 0, err := .invalidLength } }) ∧
    (seqLen s = 4 → ∃ (u : BitVec 32) (r : IntWord),
      exec (.decodeI32 ord) s = .next { s with outputs := some { rOut := r, bOut := 0, lenOut := 0, err := .ok } } ∧
      u = (match ord with
        | .little => lane s.inputs.bIn.value 3 ++ lane s.inputs.bIn.value 2 ++ lane s.inputs.bIn.value 1 ++
            lane s.inputs.bIn.value 0
        | .big => lane s.inputs.bIn.value 0 ++ lane s.inputs.bIn.value 1 ++ lane s.inputs.bIn.value 2 ++
            lane s.inputs.bIn.value 3) ∧
      r = u.signExtend 64 ∧
      r.toInt = (if u.toNat > 2147483647 then (u.toNat : Int) - 4294967296 else u.toNat) ∧
      -2147483648 ≤ r.toInt ∧ r.toInt ≤ 2147483647)

/-- R80 with R41: the rank function, U as the weighted sum, its bound, and the table of U as a bit vector. -/
def Obligations.AssemblyIsTheRankWeightedSum : Prop :=
  (∀ n i : Nat, rank n .little i = i ∧ rank n .big i = n - 1 - i) ∧
  (∀ (n : Nat) (ord : Order) (b : LaneWord), n = 2 ∨ n = 4 →
    assembleBytes n ord b = ∑ i ∈ Finset.range n, (lane b i).toNat * 2 ^ (8 * rank n ord i) ∧
    assembleBytes n ord b ≤ 2 ^ (8 * n) - 1) ∧
  ∀ b : LaneWord,
    assembleBytes 2 .little b = (lane b 1 ++ lane b 0).toNat ∧
    assembleBytes 2 .big b = (lane b 0 ++ lane b 1).toNat ∧
    assembleBytes 4 .little b = (lane b 3 ++ lane b 2 ++ lane b 1 ++ lane b 0).toNat ∧
    assembleBytes 4 .big b = (lane b 0 ++ lane b 1 ++ lane b 2 ++ lane b 3).toNat

/-- R81, the sign extension: for n = 16 and 32, the threshold form, sint of the pattern, its range, and the sign
bit. -/
def Obligations.SignExtensionIsTheTwosComplementValue : Prop :=
  ∀ n : Nat, n = 16 ∨ n = 32 → ∀ u : BitVec n,
    (u.toNat ≤ 2 ^ (n - 1) - 1 → signExtendValue u.toNat n = u.toNat) ∧
    (u.toNat > 2 ^ (n - 1) - 1 → signExtendValue u.toNat n = (u.toNat : Int) - 2 ^ n) ∧
    signExtendValue u.toNat n = u.toInt ∧
    -(2 : Int) ^ (n - 1) ≤ signExtendValue u.toNat n ∧ signExtendValue u.toNat n ≤ 2 ^ (n - 1) - 1 ∧
    (u.toNat > 2 ^ (n - 1) - 1 ↔ u.getLsbD (n - 1) = true)

/-- R142: when a decode raises InvalidLength, for all four decodes on driven inputs, by `len_in` and the width
alone. -/
def Obligations.DecodeRaisesInvalidLengthExactlyOnWrongLength : Prop :=
  ∀ (k : Kind) (ord : Order) (s : State),
    s.inputs.lenIn.allHeld = true → lanesHeld k.bytes s.inputs.bIn = true →
    ∃ o : Outputs 64, exec (decodeOf k ord) s = .next (s.drive o) ∧
      (o.err = .invalidLength ↔
        s.inputs.lenIn.value.toNat ≠ (match k with
          | .uint16 => 2
          | .int16 => 2
          | .uint32 => 4
          | .int32 => 4))

/-- The model's choice of log entry 3 (DEDUCED): a decode of a wrong length raises InvalidLength even where lanes
of `b_in` are undriven, because the check "happens before any byte is interpreted" (40_decode.md section 1). -/
def Obligations.WrongLengthIsRejectedWithoutReadingLanes : Prop :=
  ∀ (k : Kind) (ord : Order) (s : State), s.inputs.lenIn.allHeld = true → seqLen s ≠ k.bytes →
    exec (decodeOf k ord) s =
      .next { s with outputs := some { rOut := 0, bOut := 0, lenOut := 0, err := .invalidLength } }

/-- R83, the result drive, for every decode: `r_out` is U extended, its sint is R, and the other ports; on failure
zeros and InvalidLength. -/
def Obligations.DecodeDrivesExtendedResult : Prop :=
  ∀ (k : Kind) (ord : Order) (s : State),
    s.inputs.lenIn.allHeld = true → lanesHeld k.bytes s.inputs.bIn = true →
    (seqLen s = k.bytes → ∃ r : IntWord,
      exec (decodeOf k ord) s = .next { s with outputs := some { rOut := r, bOut := 0, lenOut := 0, err := .ok } } ∧
      (k.signed = false →
        r = (BitVec.ofNat k.bits (assembleBytes k.bytes ord s.inputs.bIn.value)).setWidth 64 ∧
        r.toInt = assembleBytes k.bytes ord s.inputs.bIn.value) ∧
      (k.signed = true →
        r = (BitVec.ofNat k.bits (assembleBytes k.bytes ord s.inputs.bIn.value)).signExtend 64 ∧
        r.toInt = signExtendValue (assembleBytes k.bytes ord s.inputs.bIn.value) k.bits)) ∧
    (seqLen s ≠ k.bytes → exec (decodeOf k ord) s =
      .next { s with outputs := some { rOut := 0, bOut := 0, lenOut := 0, err := .invalidLength } })

/-- 40_decode.md section 3, first law (the spec derives it): decode is exact, in range, a bijection from N-element
sequences onto the kind's range, and a signed and an unsigned decode agree below 2^(n-1) and differ by 2^n above. -/
def Obligations.DecodeIsABijectionOntoTheRange : Prop :=
  ∀ (k : Kind) (ord : Order),
    (∀ b : LaneWord, k.min ≤ decodedValue k ord b ∧ decodedValue k ord b ≤ k.max) ∧
    (∀ b c : LaneWord, decodedValue k ord b = decodedValue k ord c → ∀ i, i < k.bytes → lane b i = lane c i) ∧
    (∀ v : Int, k.min ≤ v → v ≤ k.max → ∀ s : State, s.inputs.lenIn.allHeld = true → seqLen s = k.bytes →
      ∃ (b : LaneWord) (r : IntWord),
        exec (decodeOf k ord) { s with inputs := { s.inputs with bIn := heldPort b } } =
          .next { inputs := { s.inputs with bIn := heldPort b }
                  outputs := some { rOut := r, bOut := 0, lenOut := 0, err := .ok } } ∧
        r.toInt = v) ∧
    (∀ b : LaneWord, k.signed = true →
      (assembleBytes k.bytes ord b ≤ 2 ^ (k.bits - 1) - 1 →
        decodedValue k ord b = assembleBytes k.bytes ord b) ∧
      (assembleBytes k.bytes ord b > 2 ^ (k.bits - 1) - 1 →
        decodedValue k ord b = (assembleBytes k.bytes ord b : Int) - 2 ^ k.bits))

/-- 20_memory.md section 2 and 40_decode.md section 3 (the spec derives it): decoding a sequence Little gives the
same output ports as decoding its reversal Big, wrong lengths included. -/
def Obligations.DecodeOrdersAreMirrorImages : Prop :=
  ∀ (k : Kind) (s t : State),
    s.inputs.lenIn.allHeld = true → s.inputs.lenIn = t.inputs.lenIn →
    lanesHeld k.bytes s.inputs.bIn = true → lanesHeld k.bytes t.inputs.bIn = true →
    (seqLen s = k.bytes → ∀ i, i < k.bytes →
      lane t.inputs.bIn.value i = lane s.inputs.bIn.value (k.bytes - 1 - i)) →
    ∃ o : Outputs 64, exec (decodeOf k .little) s = .next (s.drive o) ∧
      exec (decodeOf k .big) t = .next (t.drive o)

/-! ### The encode operations (41_encode.md) -/

/-- R114, `encode_u16`, whole: its words and its textual alias, the range error, the bytes, and the round trip the
rule quotes. `len_in` and `b_in` are not constrained: they are not read. -/
def Obligations.EncodeU16LaysOutTwoBytes : Prop :=
  decode 0x8#4 = .encodeU16 .little ∧ decode 0x9#4 = .encodeU16 .big ∧
  readMnemonic "encode_uint16".toList = readMnemonic "encode_u16".toList ∧
  ∀ (ord : Order) (s : State), s.inputs.vIn.allHeld = true →
    (¬(0 ≤ intOperand s ∧ intOperand s ≤ 65535) → exec (.encodeU16 ord) s =
      .next { s with outputs := some { rOut := 0, bOut := 0, lenOut := 0, err := .outOfRange } }) ∧
    ((0 ≤ intOperand s ∧ intOperand s ≤ 65535) → ∃ (p : BitVec 16) (b : LaneWord),
      exec (.encodeU16 ord) s =
        .next { s with outputs := some { rOut := 0, bOut := b, lenOut := 2, err := .ok } } ∧
      p = s.inputs.vIn.value.extractLsb 15 0 ∧ (p.toNat : Int) = intOperand s ∧
      b = (match ord with
        | .little => p.extractLsb 15 8 ++ p.extractLsb 7 0
        | .big => p.extractLsb 7 0 ++ p.extractLsb 15 8 : BitVec 16).setWidth 32 ∧
      ∀ t : State, t.inputs.lenIn = heldPort 2 → t.inputs.bIn = heldPort b →
        exec (.decodeU16 ord) t =
          .next { t with outputs := some { rOut := s.inputs.vIn.value, bOut := 0, lenOut := 0, err := .ok } })

/-- R115, `encode_i16`, whole. -/
def Obligations.EncodeI16LaysOutTwoBytes : Prop :=
  decode 0xA#4 = .encodeI16 .little ∧ decode 0xB#4 = .encodeI16 .big ∧
  ∀ (ord : Order) (s : State), s.inputs.vIn.allHeld = true →
    (¬(-32768 ≤ intOperand s ∧ intOperand s ≤ 32767) → exec (.encodeI16 ord) s =
      .next { s with outputs := some { rOut := 0, bOut := 0, lenOut := 0, err := .outOfRange } }) ∧
    ((-32768 ≤ intOperand s ∧ intOperand s ≤ 32767) → ∃ p : BitVec 16,
      exec (.encodeI16 ord) s = .next { s with outputs := some {
          rOut := 0
          bOut := (match ord with
            | .little => p.extractLsb 15 8 ++ p.extractLsb 7 0
            | .big => p.extractLsb 7 0 ++ p.extractLsb 15 8 : BitVec 16).setWidth 32
          lenOut := 2
          err := .ok } } ∧
      p = s.inputs.vIn.value.extractLsb 15 0 ∧ (p.toNat : Int) = intOperand s % 65536)

/-- R116, `encode_u32`, whole. -/
def Obligations.EncodeU32LaysOutFourBytes : Prop :=
  decode 0xC#4 = .encodeU32 .little ∧ decode 0xD#4 = .encodeU32 .big ∧
  ∀ (ord : Order) (s : State), s.inputs.vIn.allHeld = true →
    (¬(0 ≤ intOperand s ∧ intOperand s ≤ 4294967295) → exec (.encodeU32 ord) s =
      .next { s with outputs := some { rOut := 0, bOut := 0, lenOut := 0, err := .outOfRange } }) ∧
    ((0 ≤ intOperand s ∧ intOperand s ≤ 4294967295) → ∃ p : BitVec 32,
      exec (.encodeU32 ord) s = .next { s with outputs := some {
          rOut := 0
          bOut := (match ord with
            | .little => p
            | .big => p.extractLsb 7 0 ++ p.extractLsb 15 8 ++ p.extractLsb 23 16 ++ p.extractLsb 31 24)
          lenOut := 4
          err := .ok } } ∧
      p = s.inputs.vIn.value.extractLsb 31 0 ∧ (p.toNat : Int) = intOperand s)

/-- R117, `encode_i32`, whole. -/
def Obligations.EncodeI32LaysOutFourBytes : Prop :=
  decode 0xE#4 = .encodeI32 .little ∧ decode 0xF#4 = .encodeI32 .big ∧
  ∀ (ord : Order) (s : State), s.inputs.vIn.allHeld = true →
    (¬(-2147483648 ≤ intOperand s ∧ intOperand s ≤ 2147483647) → exec (.encodeI32 ord) s =
      .next { s with outputs := some { rOut := 0, bOut := 0, lenOut := 0, err := .outOfRange } }) ∧
    ((-2147483648 ≤ intOperand s ∧ intOperand s ≤ 2147483647) → ∃ p : BitVec 32,
      exec (.encodeI32 ord) s = .next { s with outputs := some {
          rOut := 0
          bOut := (match ord with
            | .little => p
            | .big => p.extractLsb 7 0 ++ p.extractLsb 15 8 ++ p.extractLsb 23 16 ++ p.extractLsb 31 24)
          lenOut := 4
          err := .ok } } ∧
      p = s.inputs.vIn.value.extractLsb 31 0 ∧ (p.toNat : Int) = intOperand s % 4294967296)

/-- R111: the two's-complement pattern of an in-range V, and that no information is lost. -/
def Obligations.PatternIsValueModuloWidth : Prop :=
  ∀ (k : Kind) (v : Int), k.min ≤ v → v ≤ k.max →
    (patternOf k v : Int) = v % 2 ^ k.bits ∧ patternOf k v < 2 ^ k.bits ∧
    (k.signed = false → (patternOf k v : Int) = v) ∧
    (k.signed = true →
      (0 ≤ v → (patternOf k v : Int) = v) ∧ (v < 0 → (patternOf k v : Int) = v + 2 ^ k.bits) ∧
      (BitVec.ofNat k.bits (patternOf k v)).toInt = v)

/-- R112 and R113: each lane of a successful encode by the rank function, the lanes above it zero, the length, and
the other ports; on failure zeros and OutOfRange. P is V mod 2^n. -/
def Obligations.EncodeDrivesRankedLanes : Prop :=
  ∀ (k : Kind) (ord : Order) (s : State), s.inputs.vIn.allHeld = true →
    ((k.min ≤ intOperand s ∧ intOperand s ≤ k.max) → ∃ b : LaneWord,
      exec (encodeOf k ord) s =
        .next { s with outputs := some { rOut := 0, bOut := b, lenOut := BitVec.ofNat 3 k.bytes, err := .ok } } ∧
      (∀ i, i < k.bytes → (lane b i).toNat =
        ((intOperand s % 2 ^ (8 * k.bytes)).toNat >>>
          (8 * (match ord with | .little => i | .big => k.bytes - 1 - i))) &&& 0xFF) ∧
      (∀ i, k.bytes ≤ i → i < 4 → lane b i = 0)) ∧
    (¬(k.min ≤ intOperand s ∧ intOperand s ≤ k.max) → exec (encodeOf k ord) s =
      .next { s with outputs := some { rOut := 0, bOut := 0, lenOut := 0, err := .outOfRange } })

/-- R143: when an encode raises OutOfRange, for all four encodes, by `v_in`, the width and the signedness alone. -/
def Obligations.EncodeRaisesOutOfRangeExactlyOutsideRange : Prop :=
  ∀ (k : Kind) (ord : Order) (s : State), s.inputs.vIn.allHeld = true →
    ∃ o : Outputs 64, exec (encodeOf k ord) s = .next (s.drive o) ∧
      (o.err = .outOfRange ↔
        ¬(match k with
          | .uint16 => 0 ≤ s.inputs.vIn.value.toInt ∧ s.inputs.vIn.value.toInt ≤ 65535
          | .int16 => -32768 ≤ s.inputs.vIn.value.toInt ∧ s.inputs.vIn.value.toInt ≤ 32767
          | .uint32 => 0 ≤ s.inputs.vIn.value.toInt ∧ s.inputs.vIn.value.toInt ≤ 4294967295
          | .int32 => -2147483648 ≤ s.inputs.vIn.value.toInt ∧ s.inputs.vIn.value.toInt ≤ 2147483647))

/-- 41_encode.md section 3, first law (the spec derives it): decode of encode is the value, and encode of decode is
the byte sequence, for every kind, order, in-range value and N-element sequence. -/
def Obligations.EncodeAndDecodeRoundTrip : Prop :=
  (∀ (k : Kind) (ord : Order) (s : State), s.inputs.vIn.allHeld = true →
    k.min ≤ intOperand s → intOperand s ≤ k.max →
    ∃ e : Outputs 64, exec (encodeOf k ord) s = .next (s.drive e) ∧ e.err = .ok ∧ e.lenOut.toNat = k.bytes ∧
      ∀ t : State, t.inputs.lenIn = heldPort (e.lenOut.setWidth 8) → t.inputs.bIn = heldPort e.bOut →
        ∃ d : Outputs 64, exec (decodeOf k ord) t = .next (t.drive d) ∧ d.err = .ok ∧
          d.rOut.toInt = intOperand s) ∧
  (∀ (k : Kind) (ord : Order) (s : State), s.inputs.lenIn.allHeld = true → seqLen s = k.bytes →
    lanesHeld k.bytes s.inputs.bIn = true →
    ∃ d : Outputs 64, exec (decodeOf k ord) s = .next (s.drive d) ∧ d.err = .ok ∧
      ∀ t : State, t.inputs.vIn = heldPort d.rOut →
        ∃ e : Outputs 64, exec (encodeOf k ord) t = .next (t.drive e) ∧ e.err = .ok ∧
          e.lenOut.toNat = k.bytes ∧
          ∀ i, i < k.bytes → lane e.bOut i = lane s.inputs.bIn.value i)

/-- 41_encode.md section 3, second law (the spec derives it): no encode clamps or wraps: every V outside the kind's
range, above it or below it, is an error and delivers nothing. So a negative V of an unsigned encode and a V of at
least 2^(n-1) of a signed one are errors, and a `decode_u16` result of 32768 or more cannot be fed to `encode_i16`. -/
def Obligations.EncodeNeverWraps : Prop :=
  (∀ (k : Kind) (ord : Order) (s : State), s.inputs.vIn.allHeld = true →
    (intOperand s < k.min ∨ k.max < intOperand s → exec (encodeOf k ord) s =
      .next { s with outputs := some { rOut := 0, bOut := 0, lenOut := 0, err := .outOfRange } }) ∧
    (k.signed = false → intOperand s < 0 → exec (encodeOf k ord) s =
      .next { s with outputs := some { rOut := 0, bOut := 0, lenOut := 0, err := .outOfRange } }) ∧
    (k.signed = true → 2 ^ (k.bits - 1) ≤ intOperand s → exec (encodeOf k ord) s =
      .next { s with outputs := some { rOut := 0, bOut := 0, lenOut := 0, err := .outOfRange } })) ∧
  (∀ (o o' : Order) (s t : State) (d : Outputs 64), exec (.decodeU16 o) s = .next (s.drive d) →
    32768 ≤ d.rOut.toInt → t.inputs.vIn = heldPort d.rOut →
    exec (.encodeI16 o') t =
      .next { t with outputs := some { rOut := 0, bOut := 0, lenOut := 0, err := .outOfRange } })

/-- 41_encode.md section 3, third law (the spec derives it): the Big encoding is the reversal of the Little one,
and both raise OutOfRange together. -/
def Obligations.EncodeOrdersAreMirrorImages : Prop :=
  ∀ (k : Kind) (s : State), s.inputs.vIn.allHeld = true →
    ∃ l b : Outputs 64, exec (encodeOf k .little) s = .next (s.drive l) ∧
      exec (encodeOf k .big) s = .next (s.drive b) ∧
      ((k.min ≤ intOperand s ∧ intOperand s ≤ k.max) →
        l.err = .ok ∧ b.err = .ok ∧ l.lenOut = b.lenOut ∧
        ∀ i, i < k.bytes → lane b.bOut i = lane l.bOut (k.bytes - 1 - i)) ∧
      (¬(k.min ≤ intOperand s ∧ intOperand s ≤ k.max) → l.err = .outOfRange ∧ b.err = .outOfRange)

/-! ### Errors (60_exceptions.md) -/

/-- R144: which errors each direction can raise, in every state. -/
def Obligations.EachDirectionHasOneError : Prop :=
  ∀ (k : Kind) (ord : Order) (s t : State),
    (exec (decodeOf k ord) s = .next t → ∃ o : Outputs 64, t = s.drive o ∧ o.err ≠ .outOfRange) ∧
    (exec (encodeOf k ord) s = .next t → ∃ o : Outputs 64, t = s.drive o ∧ o.err ≠ .invalidLength)

/-- R145: an evaluation that raises an error delivers no result, and the error's code stands on `err`. -/
def Obligations.ErrorsDeliverNoResult : Prop :=
  ∀ (i : Instr) (s t : State), exec i s = .next t →
    ∃ o : Outputs 64, t = s.drive o ∧
      (o.err ≠ .ok →
        o.rOut = 0 ∧ o.bOut = 0 ∧ o.lenOut = 0 ∧
        ((o.err = .invalidLength ∧ Status.code o.err = 0b01#2) ∨
          (o.err = .outOfRange ∧ Status.code o.err = 0b10#2)))

/-- R37: the codes on `err`. -/
def Obligations.ErrCodesAreAsTabled : Prop :=
  Status.code .ok = 0b00#2 ∧ Status.code .invalidLength = 0b01#2 ∧ Status.code .outOfRange = 0b10#2 ∧
  ∀ e : Status, Status.code e ≠ 0b11#2

/-! ### The evaluation (10_state.md, 30_encoding.md, 70_reset_and_hazards.md) -/

/-- R28 and R74: on driven inputs a step is EVAL, the spec's bit-vector dispatch and bodies: it completes, drives
all outputs, and changes nothing else. -/
def Obligations.StepIsTheBitVectorEval : Prop :=
  ∀ s : State, s.inputs.fullyHeld = true → step s = .next { s with outputs := some s.evalInputs }

/-- R38: an input an operation does not read affects no output. Two states that agree on what the operation reads,
whatever else stands on the ports, give the same observed outcome. -/
def Obligations.UnreadInputsAffectNoOutput : Prop :=
  ∀ (i : Instr) (s t : State), agreeOnRead i s.inputs t.inputs →
    observed (exec i s) = observed (exec i t)

/-- R20: nothing outlives an evaluation: whatever stands on the output ports before, the outcome is the same, and
the input ports are not written. -/
def Obligations.NothingOutlivesAnEvaluation : Prop :=
  ∀ (i : Instr) (s : State), (∀ o : Option (Outputs 64), exec i { s with outputs := o } = exec i s) ∧
    ∀ t : State, exec i s = .next t → t.inputs = s.inputs

/-- R49: after any evaluation the ports stand at EVAL of the unchanged inputs, and evaluating again changes
nothing. -/
def Obligations.EvaluationSettlesAndIsIdempotent : Prop :=
  ∀ s t : State, step s = .next t → t.inputs = s.inputs ∧ t.settled ∧ step t = .next t

/-- 10_state.md section 4 with 60_exceptions.md section 1: every step, from any state, leaves output ports that
obey the ports' rules: one direction's outputs at a time, `len_out` 0, 2 or 4, unused lanes zero, nothing but the
code beside an error. -/
def Obligations.StepsKeepOutputsLegal : Prop :=
  ∀ s t : State, step s = .next t →
    ∃ o : Outputs 64, t = s.drive o ∧ o.legal ∧ (o.lenOut = 0 ∨ o.lenOut = 2 ∨ o.lenOut = 4)

/-- R39: at reset every output is EVAL of the current inputs. The inputs themselves are the model's choice (log
entry 1), so the statement is about any driven inputs the host may present, as well as those of State.reset. -/
def Obligations.ResetOutputsAreEvalOfInputs : Prop :=
  State.reset.settled ∧ (∃ o : Outputs 64, State.reset.outputs = some o ∧ o.legal) ∧
  ∀ ins : Inputs, ins.fullyHeld = true →
    step (State.reset.present ins) =
      .next { inputs := ins
              outputs := some (datapathEval ins.op.value ins.lenIn.value ins.bIn.value ins.vIn.value) }

/-- 70_reset_and_hazards.md section 2, the undriven input: an evaluation faults exactly when a bit it reads is not
held, on the port named, and completes otherwise. The rule asks only for a fault of that evaluation; two things are
the model's choice. Log entry 2 (DESIGN CHOICE): the fault names the port, and an `op` bit that is not held faults
every evaluation, even one whose error would not depend on that bit. Log entry 3 (DEDUCED): the lanes are read only
when the length is right. -/
def Obligations.UndrivenReadBitsFault : Prop :=
  ∀ s : State,
    (s.inputs.op.allHeld = false → step s = .fault (.undriven .op)) ∧
    (s.inputs.op.allHeld = true → ∀ i, i = decode s.inputs.op.value →
      (operandsHeld i s.inputs = true → ∃ t, step s = .next t) ∧
      (i.direction = .decode → s.inputs.lenIn.allHeld = false → step s = .fault (.undriven .lenIn)) ∧
      (i.direction = .decode → s.inputs.lenIn.allHeld = true → seqLen s = i.kind.bytes →
        lanesHeld i.kind.bytes s.inputs.bIn = false → step s = .fault (.undriven .bIn)) ∧
      (i.direction = .encode → s.inputs.vIn.allHeld = false → step s = .fault (.undriven .vIn)))

/-- 00_scope.md section 3: any IW of 33 or more and any LW of 3 or more give the same results as the machine's 64
and 8 on the inputs they can represent. -/
def Obligations.PortWidthsDoNotChangeResults : Prop :=
  ∀ (iw lw : Nat), Config.leastIw ≤ iw → Config.leastLw ≤ lw →
    ∀ (op : OpWord) (len : BitVec lw) (len8 : LenWord) (b : LaneWord) (v : BitVec iw) (v64 : IntWord),
      len.toNat = len8.toNat → v.toInt = v64.toInt →
      (datapathEval op len b v).rOut.toInt = (datapathEval op len8 b v64).rOut.toInt ∧
      (datapathEval op len b v).bOut = (datapathEval op len8 b v64).bOut ∧
      (datapathEval op len b v).lenOut = (datapathEval op len8 b v64).lenOut ∧
      (datapathEval op len b v).err = (datapathEval op len8 b v64).err

/-- A step runs the instruction its operation word decodes to, and adds nothing around it (10_state.md section 2,
30_encoding.md section 6). -/
def Obligations.StepRunsTheDecodedOperation : Prop :=
  ∀ (s : State) (i : Instr), s.inputs.op.allHeld = true → decode s.inputs.op.value = i → step s = exec i s

/-- A word the host drives on `op` is the operation the next step runs (10_state.md section 1); the other input
ports keep what the host drives on them, and the outputs follow (10_state.md section 5). The byte form of the word and
withFetchWord itself are the model's choice of log entry 6 (DESIGN CHOICE). Where operand bits are undriven, `settled`
rests on two more of the model's choices: which bits the operation reads, so that a decode of a wrong length has the
InvalidLength outputs even with undriven lanes, is log entry 3 (DEDUCED), and that no output has a value where a read
bit is undriven is log entry 8 (DESIGN CHOICE). -/
def Obligations.DrivenWordRunsNext : Prop :=
  ∀ (i : Instr) (s : State),
    decodeTableWord 8 (encode i).toNat = some i ∧
    (s.withFetchWord 8 (encode i).toNat).inputs = { s.inputs with op := heldPort (encode i) } ∧
    (s.withFetchWord 8 (encode i).toNat).settled ∧
    step (s.withFetchWord 8 (encode i).toNat) = exec i (s.withFetchWord 8 (encode i).toNat)

/-- R149: the next evaluation is unaffected by the ones before it, failed or not: what a host sees over any list
of presented inputs is what it would see presenting each one alone to the reset block. -/
def Obligations.EvaluationsAreIndependentOfHistory : Prop :=
  ∀ (s : State) (inss : List Inputs),
    hostTrace s inss = inss.map fun ins => observed (step (State.reset.present ins))

/-- 20_memory.md section 4 and 60_exceptions.md section 6: blocks share no state. The block the host presents inputs
to delivers EVAL of them, and evaluating it again delivers that again, whatever the other blocks and its own old ports
hold; every other block is as it was; and the order of two presentations does not matter. -/
def Obligations.BlocksAreIndependent : Prop :=
  ∀ (blocks : List State) (j k : Nat) (a b : Inputs), j ≠ k →
    (k < blocks.length → a.fullyHeld = true → ∃ t : State, (presentBlock k a blocks)[k]? = some t ∧
      t = { inputs := a, outputs := some (datapathEval a.op.value a.lenIn.value a.bIn.value a.vIn.value) } ∧
      step t = .next t) ∧
    (presentBlock k a blocks)[j]? = blocks[j]? ∧
    presentBlock j b (presentBlock k a blocks) = presentBlock k a (presentBlock j b blocks)

/-- 10_state.md section 5 and 70_reset_and_hazards.md section 1, as an invariant: the outputs are EVAL of the current
inputs at all times. They are at reset (with the inputs of log entry 1), they are as soon as the host has presented new
inputs or driven a new word, and they are after a step from any state. Where the inputs leave a bit the evaluation
reads undriven, `settled` says that no output has a value, which is the model's choice of log entry 8 (DESIGN CHOICE).
Which bits it reads is the model's choice too: an undriven `op` bit always leaves no value, by log entry 2 (DESIGN
CHOICE), and a decode of a wrong length reads no lane, so that it outputs InvalidLength even with undriven lanes, by log
entry 3 (DEDUCED). -/
def Obligations.OutputsFollowInputsAtAllTimes : Prop :=
  State.reset.settled ∧
  (∀ (s : State) (ins : Inputs), (s.present ins).inputs = ins ∧ (s.present ins).settled ∧
    (ins.fullyHeld = true → (s.present ins).outputs =
      some (datapathEval ins.op.value ins.lenIn.value ins.bIn.value ins.vIn.value))) ∧
  (∀ (s : State) (n w : Nat), (s.withFetchWord n w).settled) ∧
  ∀ s t : State, step s = .next t → t.settled ∧ (s.settled → t = s)

/-! ### Encoding and the textual form (30_encoding.md) -/

/-- R66: the sixteen operation words, each written out bit by bit. -/
def Obligations.OpcodeMapIsAsTabled : Prop :=
  decode 0b0000#4 = .decodeU16 .little ∧ decode 0b0001#4 = .decodeU16 .big ∧
  decode 0b0010#4 = .decodeI16 .little ∧ decode 0b0011#4 = .decodeI16 .big ∧
  decode 0b0100#4 = .decodeU32 .little ∧ decode 0b0101#4 = .decodeU32 .big ∧
  decode 0b0110#4 = .decodeI32 .little ∧ decode 0b0111#4 = .decodeI32 .big ∧
  decode 0b1000#4 = .encodeU16 .little ∧ decode 0b1001#4 = .encodeU16 .big ∧
  decode 0b1010#4 = .encodeI16 .little ∧ decode 0b1011#4 = .encodeI16 .big ∧
  decode 0b1100#4 = .encodeU32 .little ∧ decode 0b1101#4 = .encodeU32 .big ∧
  decode 0b1110#4 = .encodeI32 .little ∧ decode 0b1111#4 = .encodeI32 .big

/-- 30_encoding.md sections 2 and 4: decode and encode are inverse, so every operation has one word and every word
one operation; a byte with a bit above `op[3]` and a second byte are rejected (the byte form is log entry 6). -/
def Obligations.OperationWordsRoundTrip : Prop :=
  (∀ i : Instr, i.wf = true ∧ decode (encode i) = i ∧ decodeBytes (encodeBytes i) = .ok i) ∧
  (∀ w : OpWord, encode (decode w) = w) ∧
  (∀ b : Byte, 16 ≤ b.toNat → decodeBytes [b] = .error .bitAboveOp) ∧
  (∀ (b c : Byte) (rest : List Byte), decodeBytes (b :: c :: rest) = .error .extraBytes)

/-- 10_state.md section 3, the table of the four kinds, each bound with its power of two. The spec says of its
power-of-two columns: "The two right-hand columns are [derived: from the table of §3, each figure checked against
2^n; see 90_conflicts.md audit note A1]". -/
def Obligations.KindRangesAreAsTabled : Prop :=
  (Kind.uint16.bits = 16 ∧ Kind.uint16.signed = false ∧ Kind.uint16.min = 0 ∧ Kind.uint16.max = 65535) ∧
  (Kind.int16.bits = 16 ∧ Kind.int16.signed = true ∧ Kind.int16.min = -32768 ∧ Kind.int16.max = 32767) ∧
  (Kind.uint32.bits = 32 ∧ Kind.uint32.signed = false ∧ Kind.uint32.min = 0 ∧ Kind.uint32.max = 4294967295) ∧
  (Kind.int32.bits = 32 ∧ Kind.int32.signed = true ∧ Kind.int32.min = -2147483648 ∧
    Kind.int32.max = 2147483647) ∧
  ∀ k : Kind, (k.signed = false → k.max = 2 ^ k.bits - 1) ∧
    (k.signed = true → k.min = -2 ^ (k.bits - 1) ∧ k.max = 2 ^ (k.bits - 1) - 1)

/-- 30_encoding.md section 5: the canonical spelling of every presentable call reads back as that call. -/
def Obligations.CallSpellingsReadBack : Prop :=
  ∀ c : Call, c.wf = true → readCall (callToks c) = .ok c

/-- 30_encoding.md section 5, the keyword spellings, pseudo-forms and aliases: `bytes=` before a byte list and
`value=` before an integer mean nothing, whatever follows the operand; an absent order is Little, `endianness=` is
`order=`, `encode_uint16` is `encode_u16`, and any other name is refused. -/
def Obligations.AliasesExpandToCanonicalCalls : Prop :=
  (∀ (k : Kind) (bytes : List Nat) (o : Order), elementsAreBytes bytes = true →
    readCall (.word (mnemonicText .decode k) :: .sym '(' :: (byteListToks bytes ++ [.sym ')'])) =
      .ok (.decode k bytes .little) ∧
    ∀ key, key = "order".toList ∨ key = "endianness".toList →
      readCall (.word (mnemonicText .decode k) :: .sym '(' :: (byteListToks bytes ++
        [.sym ',', .word key, .sym '=', .word (orderText o), .sym ')'])) = .ok (.decode k bytes o)) ∧
  (∀ (k : Kind) (v : Int) (o : Order),
    readCall [.word (mnemonicText .encode k), .sym '(', valueTok v, .sym ')'] = .ok (.encode k v .little) ∧
    ∀ key, key = "order".toList ∨ key = "endianness".toList →
      readCall [.word (mnemonicText .encode k), .sym '(', valueTok v, .sym ',', .word key, .sym '=',
        .word (orderText o), .sym ')'] = .ok (.encode k v o)) ∧
  (∀ (k : Kind) (bytes : List Nat) (rest : List Tok),
    readCall (.word (mnemonicText .decode k) :: .sym '(' :: .word "bytes".toList :: .sym '=' ::
      (byteListToks bytes ++ rest)) =
    readCall (.word (mnemonicText .decode k) :: .sym '(' :: (byteListToks bytes ++ rest))) ∧
  (∀ (k : Kind) (v : Int) (rest : List Tok),
    readCall (.word (mnemonicText .encode k) :: .sym '(' :: .word "value".toList :: .sym '=' :: valueTok v :: rest) =
    readCall (.word (mnemonicText .encode k) :: .sym '(' :: valueTok v :: rest)) ∧
  (∀ rest : List Tok, readCall (.word "encode_uint16".toList :: .sym '(' :: rest) =
    readCall (.word (mnemonicText .encode .uint16) :: .sym '(' :: rest)) ∧
  (∀ (m : List Char) (rest : List Tok), m ≠ "encode_uint16".toList → (∀ d k, m ≠ mnemonicText d k) →
    readCall (.word m :: .sym '(' :: rest) = .error .unknownMnemonic)

/-- 30_encoding.md section 5 (R73): a call on the ports: `op`, the length, the lanes by position, or the integer; what
cannot be presented is refused. That the ports the call's operation does not read are driven as well, every bit held, is
not R73's: it is the host's duty "to drive all four input ports with defined values" (70_reset_and_hazards.md section 1,
R172). Which values they carry is the model's choice of log entry 7 (DESIGN CHOICE), and the statement does not say. -/
def Obligations.AssemblyPlacesOperandsOnPorts : Prop :=
  (∀ (k : Kind) (bytes : List Nat) (o : Order), (Call.decode k bytes o).wf = true →
    ∃ ins, assembleCall (.decode k bytes o) = .ok ins ∧ ins.fullyHeld = true ∧
      decode ins.op.value = decodeOf k o ∧ ins.lenIn.value.toNat = bytes.length ∧
      (∀ i, i < min bytes.length 4 → (lane ins.bIn.value i).toNat = bytes.getD i 0) ∧
      (∀ i, bytes.length ≤ i → i < 4 → lane ins.bIn.value i = 0)) ∧
  (∀ (k : Kind) (v : Int) (o : Order), (Call.encode k v o).wf = true →
    ∃ ins, assembleCall (.encode k v o) = .ok ins ∧ ins.fullyHeld = true ∧
      decode ins.op.value = encodeOf k o ∧ ins.vIn.value = BitVec.ofInt 64 v ∧ ins.vIn.value.toInt = v) ∧
  (∀ (k : Kind) (bytes : List Nat) (o : Order), 256 ≤ bytes.length →
    assembleCall (.decode k bytes o) = .error .lengthNotPresentable) ∧
  (∀ (k : Kind) (v : Int) (o : Order), v < -2 ^ 63 ∨ 2 ^ 63 ≤ v →
    assembleCall (.encode k v o) = .error .valueNotPresentable)

/-- From a call to its result (30_encoding.md sections 3 and 5, 40_decode.md section 1, 41_encode.md section 1):
assembled, presented to any block and evaluated, a decode call of N bytes delivers the rank-weighted sum of its
bytes, sign-extended for the signed kinds, and an in-range encode call delivers N lanes whose rank-weighted sum is
its value modulo 2^n. -/
def Obligations.CallsEvaluateToTheirValues : Prop :=
  (∀ (k : Kind) (bytes : List Nat) (o : Order) (s : State), bytes.length = k.bytes → (∀ x ∈ bytes, x < 256) →
    ∃ (ins : Inputs) (d : Outputs 64), assembleCall (.decode k bytes o) = .ok ins ∧
      step (s.present ins) = .next { inputs := ins, outputs := some d } ∧ d.err = .ok ∧
      d.rOut.toInt =
        (if k.signed = true ∧
            2 ^ (k.bits - 1) ≤ ∑ i ∈ Finset.range k.bytes, bytes.getD i 0 * 2 ^ (8 * rank k.bytes o i)
          then ((∑ i ∈ Finset.range k.bytes, bytes.getD i 0 * 2 ^ (8 * rank k.bytes o i) : Nat) : Int) - 2 ^ k.bits
          else ((∑ i ∈ Finset.range k.bytes, bytes.getD i 0 * 2 ^ (8 * rank k.bytes o i) : Nat) : Int))) ∧
  (∀ (k : Kind) (v : Int) (o : Order) (s : State), k.min ≤ v → v ≤ k.max →
    ∃ (ins : Inputs) (e : Outputs 64), assembleCall (.encode k v o) = .ok ins ∧
      step (s.present ins) = .next { inputs := ins, outputs := some e } ∧ e.err = .ok ∧
      e.lenOut.toNat = k.bytes ∧
      ((∑ i ∈ Finset.range k.bytes, (lane e.bOut i).toNat * 2 ^ (8 * rank k.bytes o i) : Nat) : Int) =
        v % 2 ^ k.bits)
end

