-- ==== Sys2Proof/Laws/Assembler.lean ====
section
/-! SUPPORT. Laws/Assembler: each reader of the textual form undoes the writer beside it. -/

namespace Sys2Proof.Machine

@[simp] theorem readMnemonic_mnemonicText (d : Direction) (k : Kind) :
    readMnemonic (mnemonicText d k) = some (d, k) := by
  cases d <;> cases k <;> decide

@[simp] theorem readOrder_orderText (o : Order) : readOrder (orderText o) = .ok o := by cases o <;> rfl

/-- Reading back a non-empty list of elements. -/
theorem readElements_elementToks (l : List Nat) (hl : l ≠ []) (rest : List Tok) :
    readElements (elementToks l ++ rest) = some (l, rest) := by
  induction l with
  | nil => exact absurd rfl hl
  | cons a t ih =>
    cases t with
    | nil => rfl
    | cons b u =>
      have := ih (by simp)
      simp only [elementToks, List.cons_append] at *
      simp [readElements, this]

/-- Reading back a bracketed list. -/
theorem readByteList_byteListToks (l : List Nat) (rest : List Tok) :
    readByteList (byteListToks l ++ rest) = some (l, rest) := by
  cases l with
  | nil => rfl
  | cons a t =>
    have := readElements_elementToks (a :: t) (by simp) rest
    cases t with
    | nil => rfl
    | cons b u =>
      simp only [byteListToks, List.cons_append, elementToks] at *
      simpa only [readByteList] using this

/-- Reading back a signed integer. -/
theorem readValue_valueTok (v : Int) (rest : List Tok) : readValue (valueTok v :: rest) = some (v, rest) := by
  cases v with
  | ofNat n => rfl
  | negSucc n => simp [valueTok, readValue]; omega

@[simp] theorem dropKeyword_byteListToks (key : List Char) (l : List Nat) (rest : List Tok) :
    dropKeyword key (byteListToks l ++ rest) = byteListToks l ++ rest := by cases l <;> rfl

@[simp] theorem dropKeyword_valueTok (key : List Char) (v : Int) (rest : List Tok) :
    dropKeyword key (valueTok v :: rest) = valueTok v :: rest := by cases v <;> rfl

end Sys2Proof.Machine
end

