-- ==== Sys2Proof/Laws/State.lean ====
section
/-! SUPPORT. Laws/State: one lemma per field per update of the state and of the output ports, each true by rfl. -/

namespace Sys2Proof.Machine

@[simp] theorem heldPort_value {w : Nat} (v : BitVec w) : (heldPort v).value = v := rfl
@[simp] theorem heldPort_held {w : Nat} (v : BitVec w) : (heldPort v).held = BitVec.allOnes w := rfl
@[simp] theorem heldPort_allHeld {w : Nat} (v : BitVec w) : (heldPort v).allHeld = true := by
  simp [InPort.allHeld]

@[simp] theorem drive_inputs (s : State) (o : Outputs 64) : (s.drive o).inputs = s.inputs := rfl
@[simp] theorem drive_outputs (s : State) (o : Outputs 64) : (s.drive o).outputs = some o := rfl
@[simp] theorem drive_drive (s : State) (o p : Outputs 64) : (s.drive o).drive p = s.drive p := rfl

/-- What is driven does not depend on what the output ports carried. -/
@[simp] theorem drive_of_outputs (s : State) (o : Option (Outputs 64)) (p : Outputs 64) :
    ({ s with outputs := o } : State).drive p = s.drive p := rfl

@[simp] theorem raised_rOut {iw : Nat} (e : Status) : (Outputs.raised e : Outputs iw).rOut = 0 := rfl
@[simp] theorem raised_bOut {iw : Nat} (e : Status) : (Outputs.raised e : Outputs iw).bOut = 0 := rfl
@[simp] theorem raised_lenOut {iw : Nat} (e : Status) : (Outputs.raised e : Outputs iw).lenOut = 0 := rfl
@[simp] theorem raised_err {iw : Nat} (e : Status) : (Outputs.raised e : Outputs iw).err = e := rfl

@[simp] theorem decoded_rOut {iw : Nat} (r : Int) : (Outputs.decoded r : Outputs iw).rOut = BitVec.ofInt iw r := rfl
@[simp] theorem decoded_bOut {iw : Nat} (r : Int) : (Outputs.decoded r : Outputs iw).bOut = 0 := rfl
@[simp] theorem decoded_lenOut {iw : Nat} (r : Int) : (Outputs.decoded r : Outputs iw).lenOut = 0 := rfl
@[simp] theorem decoded_err {iw : Nat} (r : Int) : (Outputs.decoded r : Outputs iw).err = .ok := rfl

@[simp] theorem encoded_rOut {iw : Nat} (l : List Byte) : (Outputs.encoded l : Outputs iw).rOut = 0 := rfl
@[simp] theorem encoded_bOut {iw : Nat} (l : List Byte) : (Outputs.encoded l : Outputs iw).bOut = packLanes l := rfl
@[simp] theorem encoded_lenOut {iw : Nat} (l : List Byte) :
    (Outputs.encoded l : Outputs iw).lenOut = BitVec.ofNat 3 l.length := rfl
@[simp] theorem encoded_err {iw : Nat} (l : List Byte) : (Outputs.encoded l : Outputs iw).err = .ok := rfl

end Sys2Proof.Machine
end

