-- ==== Sys2Proof/Laws/Ops.lean ====
section
/-! SUPPORT. Laws/Ops: what each shared operation can do, said once. -/

namespace Sys2Proof.Machine

/-- All four lane words of a lane word, lane 3 most significant. -/
theorem lanes_append (b : LaneWord) : lane b 3 ++ lane b 2 ++ lane b 1 ++ lane b 0 = b := by
  apply BitVec.eq_of_getLsbD_eq
  intro j hj
  simp only [BitVec.getLsbD_append, lane, BitVec.getLsbD_extractLsb']
  have : j < 32 := hj
  by_cases h0 : j < 8
  · simp [h0]
  by_cases h1 : j < 16
  · simp [h0, show j - 8 < 8 by omega, show 8 + (j - 8) = j by omega]
  by_cases h2 : j < 24
  · simp [h0, show ¬ j - 8 < 8 by omega, show j - 8 - 8 < 8 by omega, show 16 + (j - 8 - 8) = j by omega]
  · simp [h0, show ¬ j - 8 < 8 by omega, show ¬ j - 8 - 8 < 8 by omega, show j - 8 - 8 - 8 < 8 by omega,
      show 24 + (j - 8 - 8 - 8) = j by omega]

/-- Bit `j` of four bytes, the last one least significant. -/
theorem getLsbD_four (a b c d : Byte) (j : Nat) :
    (a ++ b ++ c ++ d).getLsbD j =
      if j < 8 then d.getLsbD j else if j < 16 then c.getLsbD (j - 8) else
        if j < 24 then b.getLsbD (j - 16) else a.getLsbD (j - 24) := by
  simp only [BitVec.getLsbD_append]
  split
  · rfl
  split
  · simp [show j < 16 by omega]
  split
  · simp [show ¬ j < 16 by omega, show j < 24 by omega, show j - 8 - 8 = j - 16 by omega]
  · simp [show ¬ j < 16 by omega, show ¬ j < 24 by omega, show j - 8 - 8 - 8 = j - 24 by omega]

/-- Lane `i` of packed bytes is element `i`, or 0 where there is none. -/
theorem lane_packLanes (l : List Byte) (i : Nat) (hi : i < 4) : lane (packLanes l) i = l.getD i 0 := by
  apply BitVec.eq_of_getLsbD_eq
  intro j hj
  have hbit : (packLanes l).getLsbD (8 * i + j) = (l.getD i 0).getLsbD j := by
    refine (getLsbD_four _ _ _ _ _).trans ?_
    have hcases : i = 0 ∨ i = 1 ∨ i = 2 ∨ i = 3 := by omega
    rcases hcases with rfl | rfl | rfl | rfl
    · simp [hj]
    · simp [show ¬ 8 + j < 8 by omega, show 8 + j < 16 by omega]
    · simp [show ¬ 16 + j < 8 by omega, show ¬ 16 + j < 16 by omega, show 16 + j < 24 by omega]
    · simp [show ¬ 24 + j < 8 by omega, show ¬ 24 + j < 16 by omega, show ¬ 24 + j < 24 by omega]
  simp only [lane, BitVec.getLsbD_extractLsb', hj, decide_true, Bool.true_and, hbit]

/-- A kind is 16 or 32 bits wide (R10). -/
theorem kind_bytes_cases (k : Kind) : k.bytes = 2 ∨ k.bytes = 4 := by cases k <;> simp [Kind.bytes]

@[simp] theorem encodedBytes_length (k : Kind) (ord : Order) (v : Int) :
    (encodedBytes k ord v).length = k.bytes := by simp [encodedBytes]

/-- Element `i` of the encoded sequence is the byte of R112. -/
theorem encodedBytes_getD (k : Kind) (ord : Order) (v : Int) (i : Nat) :
    (encodedBytes k ord v).getD i 0 = if i < k.bytes then encodedByte k.bytes ord (patternOf k v) i else 0 := by
  by_cases h : i < k.bytes <;> simp [encodedBytes, h]

/-- A decode of a right-length, held sequence. -/
theorem evalDecode_of_length {k : Kind} {ord : Order} {s : State} (hl : s.inputs.lenIn.allHeld = true)
    (hn : seqLen s = k.bytes) (hb : lanesHeld k.bytes s.inputs.bIn = true) :
    evalDecode k ord s = .next (s.drive (.decoded (decodedValue k ord s.inputs.bIn.value))) := by
  simp [evalDecode, lengthOk, hl, hn, hb]

/-- A decode of a wrong-length sequence. -/
theorem evalDecode_of_wrong_length {k : Kind} {ord : Order} {s : State} (hl : s.inputs.lenIn.allHeld = true)
    (hn : seqLen s ≠ k.bytes) : evalDecode k ord s = .next (s.drive (.raised .invalidLength)) := by
  simp [evalDecode, lengthOk, hl, hn]

/-- Everything a decode that answers a next state can have done. -/
theorem evalDecode_next {k : Kind} {ord : Order} {s t : State} (h : evalDecode k ord s = .next t) :
    s.inputs.lenIn.allHeld = true ∧
      ((seqLen s = k.bytes ∧ lanesHeld k.bytes s.inputs.bIn = true ∧
          t = s.drive (.decoded (decodedValue k ord s.inputs.bIn.value))) ∨
        (seqLen s ≠ k.bytes ∧ t = s.drive (.raised .invalidLength))) := by
  unfold evalDecode lengthOk at h
  split at h
  case isFalse => cases h
  case isTrue hl =>
    refine ⟨hl, ?_⟩
    split at h
    case isTrue hn =>
      split at h
      case isTrue hb => cases h; exact .inl ⟨of_decide_eq_true hn, hb, rfl⟩
      case isFalse => cases h
    case isFalse hn => cases h; exact .inr ⟨by simpa using hn, rfl⟩

/-- An encode of an in-range, held value. -/
theorem evalEncode_of_inRange {k : Kind} {ord : Order} {s : State} (hv : s.inputs.vIn.allHeld = true)
    (hr : k.min ≤ intOperand s ∧ intOperand s ≤ k.max) :
    evalEncode k ord s = .next (s.drive (.encoded (encodedBytes k ord (intOperand s)))) := by
  simp [evalEncode, inRange, hv, hr.1, hr.2]

/-- An encode of an out-of-range value. -/
theorem evalEncode_of_outOfRange {k : Kind} {ord : Order} {s : State} (hv : s.inputs.vIn.allHeld = true)
    (hr : ¬(k.min ≤ intOperand s ∧ intOperand s ≤ k.max)) :
    evalEncode k ord s = .next (s.drive (.raised .outOfRange)) := by
  simp only [evalEncode, inRange, hv, decide_eq_true_eq, if_true, if_neg hr]

/-- Everything an encode that answers a next state can have done. -/
theorem evalEncode_next {k : Kind} {ord : Order} {s t : State} (h : evalEncode k ord s = .next t) :
    s.inputs.vIn.allHeld = true ∧
      (((k.min ≤ intOperand s ∧ intOperand s ≤ k.max) ∧
          t = s.drive (.encoded (encodedBytes k ord (intOperand s)))) ∨
        (¬(k.min ≤ intOperand s ∧ intOperand s ≤ k.max) ∧ t = s.drive (.raised .outOfRange))) := by
  unfold evalEncode inRange at h
  split at h
  case isFalse => cases h
  case isTrue hv =>
    refine ⟨hv, ?_⟩
    split at h
    case isTrue hr => cases h; exact .inl ⟨of_decide_eq_true hr, rfl⟩
    case isFalse hr => cases h; exact .inr ⟨by simpa only [decide_eq_true_eq] using hr, rfl⟩

/-- The decode operation of a kind runs the shared decode evaluation. -/
@[simp] theorem exec_decodeOf (k : Kind) (ord : Order) (s : State) :
    exec (decodeOf k ord) s = evalDecode k ord s := by cases k <;> rfl

/-- The encode operation of a kind runs the shared encode evaluation. -/
@[simp] theorem exec_encodeOf (k : Kind) (ord : Order) (s : State) :
    exec (encodeOf k ord) s = evalEncode k ord s := by cases k <;> rfl

/-- An operation is the decode or the encode of its kind and order. -/
theorem instr_cases (i : Instr) :
    (i.direction = .decode ∧ i = decodeOf i.kind i.order) ∨ (i.direction = .encode ∧ i = encodeOf i.kind i.order) := by
  cases i
  case decodeU16 => exact .inl ⟨rfl, rfl⟩
  case decodeI16 => exact .inl ⟨rfl, rfl⟩
  case decodeU32 => exact .inl ⟨rfl, rfl⟩
  case decodeI32 => exact .inl ⟨rfl, rfl⟩
  case encodeU16 => exact .inr ⟨rfl, rfl⟩
  case encodeI16 => exact .inr ⟨rfl, rfl⟩
  case encodeU32 => exact .inr ⟨rfl, rfl⟩
  case encodeI32 => exact .inr ⟨rfl, rfl⟩

end Sys2Proof.Machine
end

