-- ==== Sys2Proof/Laws/Datapath.lean ====
section
/-! SUPPORT. Laws/Datapath: the arithmetic of the shared datapath, unfolded once: assembly as plain sums of lanes,
the bytes of an encode as quotients, and the driven lanes of a presented word. -/

namespace Sys2Proof.Machine

/-- Two lane words with the same four lanes are equal. -/
theorem lane_ext {b c : LaneWord} (h : ∀ i, i < 4 → lane b i = lane c i) : b = c := by
  rw [← lanes_append b, ← lanes_append c, h 0 (by omega), h 1 (by omega), h 2 (by omega), h 3 (by omega)]

theorem assembleBytes_two_little (b : LaneWord) :
    assembleBytes 2 .little b = (lane b 1).toNat * 256 + (lane b 0).toNat := by
  simp [assembleBytes, Finset.sum_range_succ, rank]; omega

theorem assembleBytes_two_big (b : LaneWord) :
    assembleBytes 2 .big b = (lane b 0).toNat * 256 + (lane b 1).toNat := by
  simp [assembleBytes, Finset.sum_range_succ, rank]

theorem assembleBytes_four_little (b : LaneWord) :
    assembleBytes 4 .little b =
      (lane b 3).toNat * 16777216 + (lane b 2).toNat * 65536 + (lane b 1).toNat * 256 + (lane b 0).toNat := by
  simp [assembleBytes, Finset.sum_range_succ, rank]; omega

theorem assembleBytes_four_big (b : LaneWord) :
    assembleBytes 4 .big b =
      (lane b 0).toNat * 16777216 + (lane b 1).toNat * 65536 + (lane b 2).toNat * 256 + (lane b 3).toNat := by
  simp [assembleBytes, Finset.sum_range_succ, rank]

/-- Assembly reads lanes 0 to n-1 only (R38). -/
theorem assembleBytes_congr {n : Nat} {ord : Order} {b c : LaneWord} (h : ∀ i, i < n → lane b i = lane c i) :
    assembleBytes n ord b = assembleBytes n ord c := by
  unfold assembleBytes
  refine Finset.sum_congr rfl fun i hi => ?_
  rw [h i (Finset.mem_range.mp hi)]

/-- Element `i` of an encode as a quotient of its pattern. -/
theorem encodedByte_toNat (n : Nat) (ord : Order) (p i : Nat) :
    (encodedByte n ord p i).toNat = p / 2 ^ (8 * rank n ord i) % 256 := by
  have hand : ∀ x : Nat, x &&& 255 = x % 256 := fun x => Nat.and_two_pow_sub_one_eq_mod x 8
  simp [encodedByte, hand, Nat.shiftRight_eq_div_pow]

/-- A pattern fits in its width. -/
theorem patternOf_lt (k : Kind) (v : Int) : patternOf k v < 2 ^ k.bits := by
  have hpos : (0 : Int) < 2 ^ k.bits := by positivity
  have hnonneg := Int.emod_nonneg v hpos.ne'
  have hlt := Int.emod_lt_of_pos v hpos
  unfold patternOf
  zify
  rw [Int.toNat_of_nonneg hnonneg]
  exact hlt

/-- Two bytes as one vector. -/
theorem toNat_two (a b : Byte) : (a ++ b).toNat = a.toNat * 256 + b.toNat := by
  rw [BitVec.toNat_append, Nat.shiftLeft_eq, Nat.mul_comm, ← Nat.two_pow_add_eq_or_of_lt (by simpa using b.isLt)]

/-- Four bytes as one vector. -/
theorem toNat_four (a b c d : Byte) :
    (a ++ b ++ c ++ d).toNat = a.toNat * 16777216 + b.toNat * 65536 + c.toNat * 256 + d.toNat := by
  have happend : ∀ {n : Nat} (x : BitVec n) (y : Byte), (x ++ y).toNat = x.toNat * 256 + y.toNat := by
    intro n x y
    rw [BitVec.toNat_append, Nat.shiftLeft_eq, Nat.mul_comm, ← Nat.two_pow_add_eq_or_of_lt (by simpa using y.isLt)]
  rw [happend, happend, happend]
  omega

/-- A port with every bit held has every lane held. -/
theorem lanesHeld_of_allHeld {n : Nat} (hn : n ≤ 4) {p : InPort 32} (h : p.allHeld = true) :
    lanesHeld n p = true := by
  have hall : ∀ i < 4, lane (BitVec.allOnes 32) i = BitVec.allOnes 8 := by decide
  have hp : p.held = BitVec.allOnes 32 := of_decide_eq_true h
  simp only [lanesHeld, hp, List.all_eq_true, List.mem_range]
  exact fun i hi => decide_eq_true (hall i (by omega))

/-- The least IW of 33 holds every decode result exactly (R9). -/
theorem toInt_ofInt_of_result {iw : Nat} (hiw : 33 ≤ iw) {r : Int} (hlo : -2147483648 ≤ r)
    (hhi : r ≤ 4294967295) : (BitVec.ofInt iw r).toInt = r := by
  have hhalf : (2 : Nat) ^ 32 ≤ 2 ^ (iw - 1) := Nat.pow_le_pow_right (by norm_num) (by omega)
  have hfull : (2 : Nat) ^ iw = 2 * 2 ^ (iw - 1) := by rw [← pow_succ']; congr 1; omega
  have hhalf' : (2 : Int) ^ 32 ≤ 2 ^ (iw - 1) := by exact_mod_cast hhalf
  norm_num at hhalf'
  rw [BitVec.toInt_ofInt, Int.bmod_eq_of_le]
  · rw [hfull]; push_cast; omega
  · rw [hfull]; push_cast; omega

end Sys2Proof.Machine
end

