-- ==== Sys2Proof/Laws/PerInstr.lean ====
section
/-! SUPPORT. Laws/PerInstr: one statement for all operations as syntax, proved per constructor. FieldBits: the four
bits of an operation word say its direction, width, signedness and order (30_encoding.md R61 to R65). -/

namespace Sys2Proof.Laws.FieldBits

/-- DIR, W, S and ORD of the operation's word. -/
def Statement (i : Instr) : Prop :=
  (encode i).getLsbD 3 = decide (i.direction = .encode) ∧ (encode i).getLsbD 2 = decide (i.kind.bytes = 4) ∧
    (encode i).getLsbD 1 = i.kind.signed ∧ (encode i).getLsbD 0 = decide (i.order = .big)

theorem decodeU16 (ord : Order) : Statement (.decodeU16 ord) := by cases ord <;> exact ⟨rfl, rfl, rfl, rfl⟩
theorem decodeI16 (ord : Order) : Statement (.decodeI16 ord) := by cases ord <;> exact ⟨rfl, rfl, rfl, rfl⟩
theorem decodeU32 (ord : Order) : Statement (.decodeU32 ord) := by cases ord <;> exact ⟨rfl, rfl, rfl, rfl⟩
theorem decodeI32 (ord : Order) : Statement (.decodeI32 ord) := by cases ord <;> exact ⟨rfl, rfl, rfl, rfl⟩
theorem encodeU16 (ord : Order) : Statement (.encodeU16 ord) := by cases ord <;> exact ⟨rfl, rfl, rfl, rfl⟩
theorem encodeI16 (ord : Order) : Statement (.encodeI16 ord) := by cases ord <;> exact ⟨rfl, rfl, rfl, rfl⟩
theorem encodeU32 (ord : Order) : Statement (.encodeU32 ord) := by cases ord <;> exact ⟨rfl, rfl, rfl, rfl⟩
theorem encodeI32 (ord : Order) : Statement (.encodeI32 ord) := by cases ord <;> exact ⟨rfl, rfl, rfl, rfl⟩

end Sys2Proof.Laws.FieldBits
end

