-- ==== Sys2Proof/Laws/Step.lean ====
section
/-! SUPPORT. Laws/Step: everything an evaluation can do, said once, and what settling the output ports can do. -/

namespace Sys2Proof.Machine

/-- A step is an evaluation. -/
@[simp] theorem step_eq_evaluate (s : State) : step s = evaluate s := rfl

/-- An evaluation runs the operation on the port. -/
theorem evaluate_of_presented {s : State} {i : Instr} (h : presentedOp s = some i) : evaluate s = exec i s := by
  simp only [evaluate, h]

/-- An evaluation that answers a next state ran an operation that answered it. -/
theorem evaluate_next {s t : State} (h : evaluate s = .next t) :
    ∃ i, presentedOp s = some i ∧ exec i s = .next t := by
  unfold evaluate at h
  cases hp : presentedOp s with
  | none => rw [hp] at h; cases h
  | some i => rw [hp] at h; exact ⟨i, rfl, h⟩

/-- The operation on the port does not depend on the outputs. -/
@[simp] theorem presentedOp_of_outputs (s : State) (o : Option (Outputs 64)) :
    presentedOp { s with outputs := o } = presentedOp s := rfl
@[simp] theorem presentedOp_drive (s : State) (o : Outputs 64) : presentedOp (s.drive o) = presentedOp s := rfl

/-- Every next state is the same inputs with the outputs driven anew. -/
theorem exec_next_drive {i : Instr} {s t : State} (h : exec i s = .next t) : ∃ o, t = s.drive o := by
  rcases instr_cases i with ⟨-, hi⟩ | ⟨-, hi⟩ <;> rw [hi] at h
  · rw [exec_decodeOf] at h
    rcases evalDecode_next h with ⟨-, ⟨-, -, rfl⟩ | ⟨-, rfl⟩⟩ <;> exact ⟨_, rfl⟩
  · rw [exec_encodeOf] at h
    rcases evalEncode_next h with ⟨-, ⟨-, rfl⟩ | ⟨-, rfl⟩⟩ <;> exact ⟨_, rfl⟩

theorem evaluate_next_drive {s t : State} (h : evaluate s = .next t) : ∃ o, t = s.drive o := by
  obtain ⟨_, -, hi⟩ := evaluate_next h
  exact exec_next_drive hi

/-- No operation is refused. -/
theorem exec_not_refused (i : Instr) (s : State) (r : Refusal) : exec i s ≠ .refused r := by
  rcases instr_cases i with ⟨-, hi⟩ | ⟨-, hi⟩ <;> rw [hi]
  · rw [exec_decodeOf]; unfold evalDecode
    split
    · split
      · split <;> exact fun h => nomatch h
      · exact fun h => nomatch h
    · exact fun h => nomatch h
  · rw [exec_encodeOf]; unfold evalEncode
    split
    · split <;> exact fun h => nomatch h
    · exact fun h => nomatch h

/-- No evaluation is refused: all sixteen words are legal (R69). -/
theorem evaluate_not_refused (s : State) (r : Refusal) : evaluate s ≠ .refused r := by
  unfold evaluate
  cases presentedOp s with
  | none => exact fun h => nomatch h
  | some i => exact exec_not_refused i s r

/-- Everything settling can do: the outputs are those the evaluation drives, or none where it faults. -/
theorem settle_cases (s : State) :
    (∃ o, evaluate s = .next (s.drive o) ∧ s.settle = s.drive o) ∨
      (∃ f, evaluate s = .fault f ∧ s.settle = { s with outputs := none }) := by
  unfold State.settle
  cases h : evaluate s with
  | next t =>
    obtain ⟨o, rfl⟩ := evaluate_next_drive h
    exact .inl ⟨o, rfl, rfl⟩
  | fault f => exact .inr ⟨f, rfl, rfl⟩
  | refused r => exact absurd h (evaluate_not_refused s r)

/-- Settling writes no input port. -/
@[simp] theorem settle_inputs (s : State) : s.settle.inputs = s.inputs := by
  rcases settle_cases s with ⟨o, -, h⟩ | ⟨f, -, h⟩ <;> rw [h] <;> rfl

@[simp] theorem present_inputs (s : State) (ins : Inputs) : (s.present ins).inputs = ins := settle_inputs _

@[simp] theorem driveOpWord_op (s : State) (w : Nat) :
    (driveOpWord s w).inputs.op = heldPort (BitVec.ofNat 4 w) := by rw [driveOpWord, present_inputs]
@[simp] theorem driveOpWord_lenIn (s : State) (w : Nat) : (driveOpWord s w).inputs.lenIn = s.inputs.lenIn := by
  rw [driveOpWord, present_inputs]
@[simp] theorem driveOpWord_bIn (s : State) (w : Nat) : (driveOpWord s w).inputs.bIn = s.inputs.bIn := by
  rw [driveOpWord, present_inputs]
@[simp] theorem driveOpWord_vIn (s : State) (w : Nat) : (driveOpWord s w).inputs.vIn = s.inputs.vIn := by
  rw [driveOpWord, present_inputs]

/-- A settled state presents the operation on its inputs. -/
@[simp] theorem presentedOp_settle (s : State) : presentedOp s.settle = presentedOp s := by
  rcases settle_cases s with ⟨o, -, h⟩ | ⟨f, -, h⟩ <;> rw [h] <;> rfl

end Sys2Proof.Machine
end

