-- ==== Sys2Proof/Tests/Slice0.lean ====
section
/-! SUPPORT. Tests/Slice0: smoke tests of the well-formedness checks, the operation words written out from
30_encoding.md R66, one-step tests whose expected ports are rows of 95_test_vectors.md, and a witness for every
obligation that has hypotheses. -/

namespace Sys2Proof.Tests

open Sys2Proof.Machine

/-- A state with every input bit held and the given values on the input ports. -/
def ports (op : BitVec 4) (len : BitVec 8) (b : BitVec 32) (v : BitVec 64) : State :=
  State.reset.present { op := heldPort op, lenIn := heldPort len, bIn := heldPort b, vIn := heldPort v }

/-- The output ports of an outcome, as data that can be compared: r_out, b_out, len_out and the code on err. -/
def seen (o : Host.Outcome State Fault Refusal) : Option (BitVec 64 × BitVec 32 × BitVec 3 × BitVec 2) :=
  match o with
  | .next s => s.outputs.map fun o => (o.rOut, o.bOut, o.lenOut, Status.code o.err)
  | .fault _ => none
  | .refused _ => none

/-- The fault of an outcome. -/
def faultOf (o : Host.Outcome State Fault Refusal) : Option Fault :=
  match o with
  | .next _ => none
  | .fault f => some f
  | .refused _ => none

/-- The call a text reads as, or why it is refused. -/
def callOf (t : List Char) : Option Call := (readText t).toOption

/-- Why a text is refused. -/
def refusalOf {α : Type} (r : Except AsmRefusal α) : Option AsmRefusal :=
  match r with
  | .ok _ => none
  | .error e => some e

/-! ### Well-formedness (R14, R31, R32, R69) -/

theorem test_port_widths_are_configs : IntWord = BitVec Config.iw ∧ LenWord = BitVec Config.lw := ⟨rfl, rfl⟩

theorem test_every_instruction_is_wf : (Instr.encodeI32 .big).wf = true := by decide
theorem test_wf_refuses_256_elements : (Call.decode .uint16 (List.replicate 256 0) .little).wf = false := by
  rw [Call.wf, lengthPresentable, List.length_replicate]; rfl
theorem test_wf_refuses_element_256 : (Call.decode .uint16 [256, 0] .little).wf = false := by decide
theorem test_wf_refuses_value_2_63 : (Call.encode .uint32 9223372036854775808 .little).wf = false := by decide
theorem test_wf_refuses_value_below : (Call.encode .int32 (-9223372036854775809) .little).wf = false := by decide
theorem test_wf_accepts_wrong_length : (Call.decode .uint16 [1, 2, 3] .big).wf = true := by decide

/-! ### Operation words, from the table of R66 -/

theorem test_word_0000 : decode 0b0000#4 = .decodeU16 .little := by decide
theorem test_word_0011 : decode 0b0011#4 = .decodeI16 .big := by decide
theorem test_word_0101 : decode 0b0101#4 = .decodeU32 .big := by decide
theorem test_word_0110 : decode 0b0110#4 = .decodeI32 .little := by decide
theorem test_word_1001 : decode 0b1001#4 = .encodeU16 .big := by decide
theorem test_word_1010 : decode 0b1010#4 = .encodeI16 .little := by decide
theorem test_word_1101 : decode 0b1101#4 = .encodeU32 .big := by decide
theorem test_word_1110 : decode 0b1110#4 = .encodeI32 .little := by decide
theorem test_table_word : decodeTableWord 8 0xE = some (.encodeI32 .little) := by decide
theorem test_table_word_four_bits : decodeTableWord 4 0x1 = some (.decodeU16 .big) := by decide
theorem test_table_word_above_op : decodeTableWord 8 0x10 = none := by decide
theorem test_table_word_two_bytes : decodeTableWord 16 0x1 = none := by decide

/-! ### One step, from 95_test_vectors.md -/

/-- The row D16-1 with the don't-care values of section 2.1. -/
theorem test_decode_u16_dont_care : seen (step (ports 0x0 2 0xABAB1234 0xFFFFFFFFFFFFFFFF)) =
    some (0x1234, 0, 0, 0b00) := by decide
/-- The row L1-3a. -/
theorem test_decode_u16_one_byte : seen (step (ports 0x0 1 0x00000001 0)) = some (0, 0, 0, 0b01) := by decide
/-- The row D16-10. -/
theorem test_decode_i16_big : seen (step (ports 0x3 2 0x00008000 0)) = some (0x80, 0, 0, 0b00) := by decide
/-- The row D16-14. -/
theorem test_decode_i16_negative : seen (step (ports 0x2 2 0x00008001 0)) =
    some (0xFFFFFFFFFFFF8001, 0, 0, 0b00) := by decide
/-- The row D32-3. -/
theorem test_decode_u32_big : seen (step (ports 0x5 4 0x04030201 0)) = some (0x01020304, 0, 0, 0b00) := by decide
/-- The row D32-14. -/
theorem test_decode_u32_two_bytes : seen (step (ports 0x4 2 0x00000201 0)) = some (0, 0, 0, 0b01) := by decide
/-- The row D32-7. -/
theorem test_decode_i32_most_negative : seen (step (ports 0x6 4 0x80000000 0)) =
    some (0xFFFFFFFF80000000, 0, 0, 0b00) := by decide
/-- The row D32-12. -/
theorem test_decode_i32_big : seen (step (ports 0x7 4 0x7FFFFFFF 0)) =
    some (0xFFFFFFFFFFFFFF7F, 0, 0, 0b00) := by decide
/-- The row E16-3 with the don't-care values of section 2.3. -/
theorem test_encode_u16_dont_care : seen (step (ports 0x8 7 0xDEADBEEF 0x100)) =
    some (0, 0x0100, 2, 0b00) := by decide
/-- The row E16-8. -/
theorem test_encode_u16_no_clamp : seen (step (ports 0x9 0 0 0x10000)) = some (0, 0, 0, 0b10) := by decide
/-- The row E16-14. -/
theorem test_encode_i16_big : seen (step (ports 0xB 0 0 0xFFFFFFFFFFFFFF7F)) =
    some (0, 0x7FFF, 2, 0b00) := by decide
/-- The row E16-18. -/
theorem test_encode_i16_low_bits_in_range : seen (step (ports 0xA 0 0 0x10005)) = some (0, 0, 0, 0b10) := by decide
/-- The row E32-5. -/
theorem test_encode_u32_big : seen (step (ports 0xD 0 0 0x12345678)) = some (0, 0x78563412, 4, 0b00) := by decide
/-- The row E32-15. -/
theorem test_encode_u32_bit_63 : seen (step (ports 0xD 0 0 0x8000000000000000)) = some (0, 0, 0, 0b10) := by decide
/-- The row E32-14. -/
theorem test_encode_i32_big : seen (step (ports 0xF 0 0 0xFFFFFFFFFFFFFFFE)) =
    some (0, 0xFEFFFFFF, 4, 0b00) := by decide
/-- The row E32-12. -/
theorem test_encode_i32_below_range : seen (step (ports 0xE 0 0 0xFFFFFFFF7FFFFFFF)) =
    some (0, 0, 0, 0b10) := by decide

/-! ### Undriven inputs (R174) -/

/-- An undriven bit of the operation word. -/
theorem test_undriven_op : faultOf (step
    { ports 0x0 2 0x1234 0 with inputs := { (ports 0x0 2 0x1234 0).inputs with op := ⟨0x0, 0xE⟩ } }) =
    some (.undriven .op) := by decide
/-- Lane 1 undriven in a 16-bit decode. -/
theorem test_undriven_lane : faultOf (exec (.decodeU16 .little)
    { ports 0x0 2 0x1234 0 with inputs := { (ports 0x0 2 0x1234 0).inputs with bIn := ⟨0x1234, 0xFFFF7FFF⟩ } }) =
    some (.undriven .bIn) := by decide
/-- Lanes 2 and 3 undriven in a 16-bit decode: they are not read (R38). -/
theorem test_undriven_unread_lanes : seen (exec (.decodeU16 .little)
    { ports 0x0 2 0x1234 0 with inputs := { (ports 0x0 2 0x1234 0).inputs with bIn := ⟨0x1234, 0xFFFF⟩ } }) =
    some (0x1234, 0, 0, 0b00) := by decide

/-! ### The outputs follow the inputs (R39), before any step -/

/-- The row D16-1, presented and not stepped. -/
theorem test_outputs_follow_presented_inputs :
    (ports 0x0 2 0x1234 0).outputs = some { rOut := 0x1234, bOut := 0, lenOut := 0, err := .ok } := by decide
/-- Lane 1 undriven in a 16-bit decode (R174, log entry 8). -/
theorem test_no_outputs_while_undriven :
    ((ports 0x0 2 0x1234 0).present { (ports 0x0 2 0x1234 0).inputs with bIn := ⟨0x1234, 0xFF⟩ }).outputs = none := by
  decide
/-- The row E16-3, its word driven on the port of a block that carried a decode. -/
theorem test_outputs_follow_driven_word : ((ports 0x0 2 0x1234 0x100).withFetchWord 8 0x8).outputs =
    some { rOut := 0, bOut := 0x0100, lenOut := 2, err := .ok } := by decide

/-! ### The textual form, from the examples of R71 and R72 -/

theorem test_text_decode : callOf "decode_u16([1,0], Big)".toList = some (.decode .uint16 [1, 0] .big) := by decide
theorem test_text_keyword : callOf "decode_i16(bytes=[0,128], Little)".toList =
    some (.decode .int16 [0, 128] .little) := by decide
theorem test_text_alias : callOf "encode_uint16(256, Big)".toList = some (.encode .uint16 256 .big) := by decide
theorem test_text_default_order : callOf "encode_i16(-32769)".toList =
    some (.encode .int16 (-32769) .little) := by decide
theorem test_text_endianness : callOf "encode_u32(0x1234_5678, endianness=Big)".toList =
    some (.encode .uint32 0x12345678 .big) := by decide
theorem test_text_empty_list : callOf "decode_u32([], Big)".toList = some (.decode .uint32 [] .big) := by decide
theorem test_text_unknown_name : refusalOf (readText "decode_uint16([1,0])".toList) =
    some .unknownMnemonic := by decide
theorem test_text_not_a_byte : refusalOf (readText "decode_u16([256,0])".toList) = some .notAByte := by decide
theorem test_text_unknown_order : refusalOf (readText "decode_u16([1,0], Native)".toList) =
    some .unknownOrder := by decide
theorem test_text_bad_character : refusalOf (readText "decode_u16([1;0])".toList) = some .badToken := by decide
/-- Lower-case hexadecimal digits, the model's choice (log entry 7). -/
theorem test_text_lower_case_hex : callOf "encode_u16(0xbeef)".toList = some (.encode .uint16 0xBEEF .little) := by
  decide
theorem test_text_value_keyword : callOf "encode_u16(value=0xFF, order=Big)".toList =
    some (.encode .uint16 255 .big) := by decide
/-- The row L1-11, from its text to its ports. -/
theorem test_text_to_ports : (assembleText "decode_u16([1,0], Big)".toList).toOption =
    some (ports 0x1 2 0x00000001 0).inputs := by decide

/-! ### Witnesses: for each obligation with hypotheses, states and operands that meet them, each clause at the
edges of its range -/

/-- A decode state of length `len` with every bit held. -/
def decodeAt (len : BitVec 8) : State := ports 0x0 len 0x04030201 0
/-- An encode state of value `v` with every bit held. -/
def encodeAt (v : Int) : State := ports 0x8 0 0 (BitVec.ofInt 64 v)

theorem witness_DecodeU16ZeroExtendsTwoBytes :
    (decodeAt 2).inputs.lenIn.allHeld = true ∧ lanesHeld 2 (decodeAt 2).inputs.bIn = true ∧ seqLen (decodeAt 2) = 2 ∧
    (decodeAt 1).inputs.lenIn.allHeld = true ∧ lanesHeld 2 (decodeAt 1).inputs.bIn = true ∧ seqLen (decodeAt 1) ≠ 2 ∧
    seqLen (decodeAt 3) ≠ 2 ∧ seqLen (decodeAt 255) ≠ 2 := by decide
theorem witness_DecodeI16SignExtendsTwoBytes :
    (decodeAt 2).inputs.lenIn.allHeld = true ∧ lanesHeld 2 (decodeAt 2).inputs.bIn = true ∧ seqLen (decodeAt 2) = 2 ∧
    (decodeAt 0).inputs.lenIn.allHeld = true ∧ lanesHeld 2 (decodeAt 0).inputs.bIn = true ∧ seqLen (decodeAt 0) ≠ 2 ∧
    seqLen (decodeAt 4) ≠ 2 := by decide
theorem witness_DecodeU32ZeroExtendsFourBytes :
    (decodeAt 4).inputs.lenIn.allHeld = true ∧ lanesHeld 4 (decodeAt 4).inputs.bIn = true ∧ seqLen (decodeAt 4) = 4 ∧
    (decodeAt 3).inputs.lenIn.allHeld = true ∧ lanesHeld 4 (decodeAt 3).inputs.bIn = true ∧ seqLen (decodeAt 3) ≠ 4 ∧
    seqLen (decodeAt 5) ≠ 4 := by decide
theorem witness_DecodeI32SignExtendsFourBytes :
    (decodeAt 4).inputs.lenIn.allHeld = true ∧ lanesHeld 4 (decodeAt 4).inputs.bIn = true ∧ seqLen (decodeAt 4) = 4 ∧
    (decodeAt 2).inputs.lenIn.allHeld = true ∧ lanesHeld 4 (decodeAt 2).inputs.bIn = true ∧ seqLen (decodeAt 2) ≠ 4 ∧
    seqLen (decodeAt 5) ≠ 4 := by decide
theorem witness_AssemblyIsTheRankWeightedSum : ((2 = 2 ∨ 2 = 4) ∧ (4 = 2 ∨ 4 = 4)) := by decide
theorem witness_SignExtensionIsTheTwosComplementValue :
    (16 = 16 ∨ 16 = 32) ∧ (0x7FFF#16).toNat ≤ 2 ^ (16 - 1) - 1 ∧ (0x8000#16).toNat > 2 ^ (16 - 1) - 1 ∧
    (32 = 16 ∨ 32 = 32) ∧ (0x7FFFFFFF#32).toNat ≤ 2 ^ (32 - 1) - 1 ∧ (0x80000000#32).toNat > 2 ^ (32 - 1) - 1 := by
  decide
theorem witness_DecodeRaisesInvalidLengthExactlyOnWrongLength :
    (decodeAt 3).inputs.lenIn.allHeld = true ∧ lanesHeld Kind.uint32.bytes (decodeAt 3).inputs.bIn = true := by decide
theorem witness_WrongLengthIsRejectedWithoutReadingLanes :
    ((decodeAt 1).present { (decodeAt 1).inputs with bIn := ⟨0, 0⟩ }).inputs.lenIn.allHeld = true ∧
    seqLen ((decodeAt 1).present { (decodeAt 1).inputs with bIn := ⟨0, 0⟩ }) ≠ Kind.uint16.bytes := by decide
theorem witness_DecodeDrivesExtendedResult :
    (decodeAt 2).inputs.lenIn.allHeld = true ∧ lanesHeld Kind.int16.bytes (decodeAt 2).inputs.bIn = true ∧
    seqLen (decodeAt 2) = Kind.int16.bytes ∧ Kind.int16.signed = true ∧ seqLen (decodeAt 2) = Kind.uint16.bytes ∧
    Kind.uint16.signed = false ∧ seqLen (decodeAt 3) ≠ Kind.int16.bytes := by decide
theorem witness_DecodeIsABijectionOntoTheRange :
    decodedValue .int16 .little 0xAA008000#32 = decodedValue .int16 .little 0xBB008000#32 ∧
    Kind.int16.min ≤ -32768 ∧ -32768 ≤ Kind.int16.max ∧ (decodeAt 2).inputs.lenIn.allHeld = true ∧
    seqLen (decodeAt 2) = Kind.int16.bytes ∧ Kind.int16.signed = true ∧
    assembleBytes 2 .little 0x00007FFF#32 ≤ 2 ^ (Kind.int16.bits - 1) - 1 ∧
    assembleBytes 2 .little 0x00008000#32 > 2 ^ (Kind.int16.bits - 1) - 1 := by decide
theorem witness_DecodeOrdersAreMirrorImages :
    (ports 0 2 0x1234 0).inputs.lenIn.allHeld = true ∧
    (ports 0 2 0x1234 0).inputs.lenIn = (ports 1 2 0x3412 0).inputs.lenIn ∧
    lanesHeld 2 (ports 0 2 0x1234 0).inputs.bIn = true ∧ lanesHeld 2 (ports 1 2 0x3412 0).inputs.bIn = true ∧
    seqLen (ports 0 2 0x1234 0) = Kind.uint16.bytes ∧
    (∀ i, i < Kind.uint16.bytes → lane (ports 1 2 0x3412 0).inputs.bIn.value i =
      lane (ports 0 2 0x1234 0).inputs.bIn.value (Kind.uint16.bytes - 1 - i)) ∧
    seqLen (decodeAt 3) ≠ Kind.uint16.bytes := by decide
theorem witness_EncodeU16LaysOutTwoBytes :
    (encodeAt 0).inputs.vIn.allHeld = true ∧ (0 ≤ intOperand (encodeAt 0) ∧ intOperand (encodeAt 0) ≤ 65535) ∧
    (0 ≤ intOperand (encodeAt 65535) ∧ intOperand (encodeAt 65535) ≤ 65535) ∧
    ¬(0 ≤ intOperand (encodeAt (-1)) ∧ intOperand (encodeAt (-1)) ≤ 65535) ∧
    ¬(0 ≤ intOperand (encodeAt 65536) ∧ intOperand (encodeAt 65536) ≤ 65535) ∧
    (ports 0 2 0xFFFF 0).inputs.lenIn = heldPort 2 ∧ (ports 0 2 0xFFFF 0).inputs.bIn = heldPort 0xFFFF#32 := by decide
theorem witness_EncodeI16LaysOutTwoBytes :
    (encodeAt 0).inputs.vIn.allHeld = true ∧
    (-32768 ≤ intOperand (encodeAt (-32768)) ∧ intOperand (encodeAt (-32768)) ≤ 32767) ∧
    (-32768 ≤ intOperand (encodeAt 32767) ∧ intOperand (encodeAt 32767) ≤ 32767) ∧
    ¬(-32768 ≤ intOperand (encodeAt (-32769)) ∧ intOperand (encodeAt (-32769)) ≤ 32767) ∧
    ¬(-32768 ≤ intOperand (encodeAt 32768) ∧ intOperand (encodeAt 32768) ≤ 32767) := by decide
theorem witness_EncodeU32LaysOutFourBytes :
    (encodeAt 0).inputs.vIn.allHeld = true ∧
    (0 ≤ intOperand (encodeAt 4294967295) ∧ intOperand (encodeAt 4294967295) ≤ 4294967295) ∧
    ¬(0 ≤ intOperand (encodeAt (-1)) ∧ intOperand (encodeAt (-1)) ≤ 4294967295) ∧
    ¬(0 ≤ intOperand (encodeAt 4294967296) ∧ intOperand (encodeAt 4294967296) ≤ 4294967295) := by decide
theorem witness_EncodeI32LaysOutFourBytes :
    (encodeAt 0).inputs.vIn.allHeld = true ∧
    (-2147483648 ≤ intOperand (encodeAt (-2147483648)) ∧ intOperand (encodeAt (-2147483648)) ≤ 2147483647) ∧
    ¬(-2147483648 ≤ intOperand (encodeAt (-2147483649)) ∧ intOperand (encodeAt (-2147483649)) ≤ 2147483647) ∧
    ¬(-2147483648 ≤ intOperand (encodeAt 2147483648) ∧ intOperand (encodeAt 2147483648) ≤ 2147483647) := by decide
theorem witness_PatternIsValueModuloWidth :
    Kind.int16.min ≤ -32768 ∧ (-32768 : Int) ≤ Kind.int16.max ∧ Kind.int16.signed = true ∧ (-32768 : Int) < 0 ∧
    Kind.uint32.min ≤ 4294967295 ∧ (4294967295 : Int) ≤ Kind.uint32.max ∧ Kind.uint32.signed = false ∧
    Kind.int32.min ≤ 2147483647 ∧ (2147483647 : Int) ≤ Kind.int32.max ∧ (0 : Int) ≤ 2147483647 := by decide
theorem witness_EncodeDrivesRankedLanes :
    (encodeAt (-1)).inputs.vIn.allHeld = true ∧
    (Kind.int16.min ≤ intOperand (encodeAt (-1)) ∧ intOperand (encodeAt (-1)) ≤ Kind.int16.max) ∧
    ¬(Kind.uint16.min ≤ intOperand (encodeAt (-1)) ∧ intOperand (encodeAt (-1)) ≤ Kind.uint16.max) ∧
    Kind.int16.bytes ≤ 2 ∧ 2 < 4 := by decide
theorem witness_EncodeRaisesOutOfRangeExactlyOutsideRange : (encodeAt 32768).inputs.vIn.allHeld = true := by decide
theorem witness_EncodeAndDecodeRoundTrip :
    (encodeAt (-129)).inputs.vIn.allHeld = true ∧ Kind.int16.min ≤ intOperand (encodeAt (-129)) ∧
    intOperand (encodeAt (-129)) ≤ Kind.int16.max ∧
    seen (exec (encodeOf .int16 .big) (encodeAt (-129))) = some (0, 0x7FFF, 2, 0b00) ∧
    (ports 0 2 0x7FFF 0).inputs.lenIn = heldPort ((2#3).setWidth 8) ∧
    (ports 0 2 0x7FFF 0).inputs.bIn = heldPort 0x7FFF#32 ∧
    (decodeAt 4).inputs.lenIn.allHeld = true ∧ seqLen (decodeAt 4) = Kind.int32.bytes ∧
    lanesHeld Kind.int32.bytes (decodeAt 4).inputs.bIn = true ∧
    seen (exec (decodeOf .int32 .little) (decodeAt 4)) = some (0x04030201, 0, 0, 0b00) ∧
    (encodeAt 0x04030201).inputs.vIn = heldPort 0x04030201#64 := by decide
theorem witness_EncodeNeverWraps :
    (encodeAt (-1)).inputs.vIn.allHeld = true ∧ intOperand (encodeAt (-1)) < Kind.uint16.min ∧
    Kind.uint16.max < intOperand (encodeAt 65536) ∧ intOperand (encodeAt (-32769)) < Kind.int16.min ∧
    Kind.int16.max < intOperand (encodeAt 32768) ∧ Kind.uint32.signed = false ∧ intOperand (encodeAt (-1)) < 0 ∧
    Kind.int16.signed = true ∧ (2 : Int) ^ (Kind.int16.bits - 1) ≤ intOperand (encodeAt 32768) ∧
    seen (exec (.decodeU16 .little) (ports 0 2 0x8000 0)) = some (0x8000, 0, 0, 0b00) ∧
    32768 ≤ (0x8000#64).toInt ∧ (encodeAt 32768).inputs.vIn = heldPort 0x8000#64 := by decide
theorem witness_EncodeOrdersAreMirrorImages :
    (encodeAt 4660).inputs.vIn.allHeld = true ∧
    (Kind.uint16.min ≤ intOperand (encodeAt 4660) ∧ intOperand (encodeAt 4660) ≤ Kind.uint16.max) ∧
    ¬(Kind.uint16.min ≤ intOperand (encodeAt 65536) ∧ intOperand (encodeAt 65536) ≤ Kind.uint16.max) := by decide
theorem witness_EachDirectionHasOneError :
    seen (exec (decodeOf .uint16 .little) (decodeAt 1)) = some (0, 0, 0, 0b01) ∧
    seen (exec (encodeOf .uint16 .little) (encodeAt (-1))) = some (0, 0, 0, 0b10) := by decide
theorem witness_ErrorsDeliverNoResult :
    seen (exec (.decodeU16 .little) (decodeAt 3)) = some (0, 0, 0, 0b01) ∧
    seen (exec (.encodeI32 .big) (encodeAt 2147483648)) = some (0, 0, 0, 0b10) := by decide
theorem witness_StepIsTheBitVectorEval : (decodeAt 2).inputs.fullyHeld = true := by decide
theorem witness_UnreadInputsAffectNoOutput :
    agreeOnRead (.decodeU16 .little) (ports 0 2 0x00001234 0).inputs
      ⟨⟨5, 0⟩, heldPort 2, ⟨0xABAB1234, 0x0000FFFF⟩, ⟨7, 0⟩⟩ ∧
    agreeOnRead (.encodeU16 .little) (ports 8 0 0 256).inputs ⟨⟨5, 0⟩, ⟨7, 1⟩, ⟨3, 0⟩, heldPort 256⟩ := by
  refine ⟨⟨rfl, ?_⟩, rfl⟩
  show ∀ j, j < 2 → _
  decide
theorem witness_NothingOutlivesAnEvaluation :
    seen (exec (.decodeU16 .little) (decodeAt 2)) = some (0x0201, 0, 0, 0b00) := by decide
theorem witness_EvaluationSettlesAndIsIdempotent :
    seen (step (decodeAt 2)) = some (0x0201, 0, 0, 0b00) := by decide
theorem witness_StepsKeepOutputsLegal :
    seen (step (decodeAt 2)) = some (0x0201, 0, 0, 0b00) ∧ seen (step (encodeAt 1)) = some (0, 1, 2, 0b00) ∧
    seen (step (decodeAt 9)) = some (0, 0, 0, 0b01) := by decide
theorem witness_ResetOutputsAreEvalOfInputs : (encodeAt 5).inputs.fullyHeld = true := by decide
/-- The state of a 16-bit decode with the given bits of `op`, `len_in` and `b_in` held. -/
def partlyHeld (opHeld : BitVec 4) (lenHeld : BitVec 8) (bHeld : BitVec 32) : State :=
  State.reset.present { op := ⟨0x0, opHeld⟩, lenIn := ⟨2, lenHeld⟩, bIn := ⟨0x1234, bHeld⟩, vIn := ⟨0, 0⟩ }
theorem witness_UndrivenReadBitsFault :
    (partlyHeld 0xE 0xFF 0xFFFF).inputs.op.allHeld = false ∧ (partlyHeld 0xF 0xFF 0xFFFF).inputs.op.allHeld = true ∧
    Instr.decodeU16 .little = decode (partlyHeld 0xF 0xFF 0xFFFF).inputs.op.value ∧
    operandsHeld (.decodeU16 .little) (partlyHeld 0xF 0xFF 0xFFFF).inputs = true ∧
    (Instr.decodeU16 .little).direction = .decode ∧ (partlyHeld 0xF 0x7F 0xFFFF).inputs.lenIn.allHeld = false ∧
    (partlyHeld 0xF 0xFF 0x7FFF).inputs.lenIn.allHeld = true ∧
    seqLen (partlyHeld 0xF 0xFF 0x7FFF) = (Instr.decodeU16 .little).kind.bytes ∧
    lanesHeld (Instr.decodeU16 .little).kind.bytes (partlyHeld 0xF 0xFF 0x7FFF).inputs.bIn = false := by decide
/-- The clauses about an encode: all of `v_in` held, and bit 63 not held. -/
theorem witness_UndrivenReadBitsFault_encode :
    Instr.encodeU16 .little = decode (encodeAt 0).inputs.op.value ∧ (Instr.encodeU16 .little).direction = .encode ∧
    operandsHeld (.encodeU16 .little) (encodeAt 0).inputs = true ∧
    (State.present (encodeAt 0) { (encodeAt 0).inputs with vIn := ⟨0, 0x7FFFFFFFFFFFFFFF⟩ }).inputs.vIn.allHeld =
      false := by decide
theorem witness_PortWidthsDoNotChangeResults :
    Config.leastIw ≤ 33 ∧ Config.leastLw ≤ 3 ∧ (4#3).toNat = (4#8).toNat ∧
    (0x180000000#33).toInt = (0xFFFFFFFF80000000#64).toInt := by decide
theorem witness_StepRunsTheDecodedOperation :
    (encodeAt 0).inputs.op.allHeld = true ∧ decode (encodeAt 0).inputs.op.value = .encodeU16 .little := by decide
theorem witness_BlocksAreIndependent :
    (0 : Nat) ≠ 1 ∧ 1 < [State.reset, encodeAt 5].length ∧ (decodeAt 2).inputs.fullyHeld = true := by decide
theorem witness_OutputsFollowInputsAtAllTimes :
    (decodeAt 2).inputs.fullyHeld = true ∧ seen (step (decodeAt 2)) = some (0x0201, 0, 0, 0b00) ∧
    (decodeAt 2).outputs = (if (decodeAt 2).inputs.evaluable then some (decodeAt 2).evalInputs else none) := by decide
theorem witness_OperationWordsRoundTrip : 16 ≤ (0x10#8).toNat := by decide
theorem witness_KindRangesAreAsTabled : Kind.uint32.signed = false ∧ Kind.int32.signed = true := by decide
theorem witness_CallSpellingsReadBack :
    (Call.decode .uint16 [1, 255] .big).wf = true ∧ (Call.encode .int16 (-32769) .little).wf = true := by decide
theorem witness_AliasesExpandToCanonicalCalls :
    elementsAreBytes [0, 255] = true ∧
    ("endianness".toList = "order".toList ∨ "endianness".toList = "endianness".toList) ∧
    ("order".toList = "order".toList ∨ "order".toList = "endianness".toList) ∧
    "decode_uint16".toList ≠ "encode_uint16".toList := by decide
theorem witness_AliasesExpandToCanonicalCalls_unknown (d : Direction) (k : Kind) :
    "decode_uint16".toList ≠ mnemonicText d k := by cases d <;> cases k <;> decide
theorem witness_AssemblyPlacesOperandsOnPorts :
    (Call.decode .uint16 [1, 2, 3, 4, 5] .big).wf = true ∧ 3 < min [1, 2, 3, 4, 5].length 4 ∧
    (Call.decode .uint16 [1] .big).wf = true ∧ [1].length ≤ 3 ∧ 3 < 4 ∧
    (Call.encode .uint16 (-9223372036854775808) .big).wf = true ∧
    ((9223372036854775808 : Int) < -2 ^ 63 ∨ (2 : Int) ^ 63 ≤ 9223372036854775808) := by decide
theorem witness_AssemblyPlacesOperandsOnPorts_tooLong : 256 ≤ (List.replicate 256 0).length :=
  Nat.le_of_eq List.length_replicate.symm
theorem witness_CallsEvaluateToTheirValues :
    [1, 0].length = Kind.uint16.bytes ∧ (∀ x ∈ [1, 0], x < 256) ∧ Kind.int32.signed = true ∧
    [0, 0, 0, 128].length = Kind.int32.bytes ∧ (∀ x ∈ [0, 0, 0, 128], x < 256) ∧
    Kind.int32.min ≤ -2147483648 ∧ (-2147483648 : Int) ≤ Kind.int32.max := by decide

end Sys2Proof.Tests
end

section
/-! PROOFS. State: the codes on `err`, and what an evaluation reads and writes (10_state.md R20, R37, R38). -/

namespace Sys2Proof.Machine

/-! ### The codes on `err`, and the ports an evaluation leaves out of account -/

/-- The code 0b11 has no preimage (R141). -/
theorem code_ne_three (e : Status) : Status.code e ≠ 0b11#2 := by cases e <;> decide

/-- Settles O24: the three codes by computation, and 0b11 is none of them. -/
theorem errCodesAreAsTabled : Obligations.ErrCodesAreAsTabled := ⟨rfl, rfl, rfl, code_ne_three⟩

theorem evalDecode_of_outputs (k : Kind) (ord : Order) (s : State) (o : Option (Outputs 64)) :
    evalDecode k ord { s with outputs := o } = evalDecode k ord s := rfl

theorem evalEncode_of_outputs (k : Kind) (ord : Order) (s : State) (o : Option (Outputs 64)) :
    evalEncode k ord { s with outputs := o } = evalEncode k ord s := rfl

/-- No operation reads the old outputs (R20). -/
@[simp] theorem exec_of_outputs (i : Instr) (s : State) (o : Option (Outputs 64)) :
    exec i { s with outputs := o } = exec i s := by
  rcases instr_cases i with ⟨-, hi⟩ | ⟨-, hi⟩ <;> rw [hi]
  · simp only [exec_decodeOf, evalDecode_of_outputs]
  · simp only [exec_encodeOf, evalEncode_of_outputs]

/-- No operation writes an input port (R49). -/
theorem exec_next_inputs {i : Instr} {s t : State} (h : exec i s = .next t) : t.inputs = s.inputs := by
  obtain ⟨o, rfl⟩ := exec_next_drive h
  rfl

/-- Settles O27: an operation reads no output port, and its next state is `s` with only the outputs driven. -/
theorem nothingOutlivesAnEvaluation : Obligations.NothingOutlivesAnEvaluation :=
  fun i s => ⟨exec_of_outputs i s, fun _ => exec_next_inputs⟩

/-! ### Unread inputs (R38) -/

theorem lanesHeld_congr {n : Nat} {p q : InPort 32} (h : ∀ i, i < n → lane p.held i = lane q.held i) :
    lanesHeld n p = lanesHeld n q := by
  unfold lanesHeld
  rw [Bool.eq_iff_iff, List.all_eq_true, List.all_eq_true]
  refine forall₂_congr fun i hi => ?_
  rw [h i (List.mem_range.mp hi)]

theorem decodedValue_congr {k : Kind} {ord : Order} {b c : LaneWord}
    (h : ∀ i, i < k.bytes → lane b i = lane c i) : decodedValue k ord b = decodedValue k ord c := by
  simp only [decodedValue, assembleBytes_congr h]

@[simp] theorem observed_next_drive (s : State) (o : Outputs 64) :
    observed (.next (s.drive o)) = .ok (some o) := rfl

theorem observed_evalDecode_congr {k : Kind} {ord : Order} {s t : State}
    (hlen : s.inputs.lenIn = t.inputs.lenIn)
    (hval : ∀ i, i < k.bytes → lane s.inputs.bIn.value i = lane t.inputs.bIn.value i)
    (hheld : ∀ i, i < k.bytes → lane s.inputs.bIn.held i = lane t.inputs.bIn.held i) :
    observed (evalDecode k ord s) = observed (evalDecode k ord t) := by
  have hseq : seqLen s = seqLen t := by rw [seqLen, seqLen, hlen]
  simp only [evalDecode, hlen, hseq, lanesHeld_congr hheld, decodedValue_congr hval]
  split
  · split
    · split <;> rfl
    · rfl
  · rfl

theorem observed_evalEncode_congr {k : Kind} {ord : Order} {s t : State} (h : s.inputs.vIn = t.inputs.vIn) :
    observed (evalEncode k ord s) = observed (evalEncode k ord t) := by
  have hv : intOperand s = intOperand t := by rw [intOperand, intOperand, h]
  simp only [evalEncode, h, hv]
  split
  · split <;> rfl
  · rfl

/-- Settles O26: every value and mask bit the shared decode or encode evaluation looks at is one that
`agreeOnRead` compares. -/
theorem unreadInputsAffectNoOutput : Obligations.UnreadInputsAffectNoOutput := by
  intro i s t hagree
  rcases instr_cases i with ⟨hdir, hi⟩ | ⟨hdir, hi⟩ <;> simp only [agreeOnRead, hdir] at hagree
  · obtain ⟨hlen, hlanes⟩ := hagree
    rw [hi, exec_decodeOf, exec_decodeOf]
    exact observed_evalDecode_congr hlen (fun j hj => (hlanes j hj).1) (fun j hj => (hlanes j hj).2)
  · rw [hi, exec_encodeOf, exec_encodeOf]
    exact observed_evalEncode_congr hagree

end Sys2Proof.Machine
end

section
/-! PROOFS. EvalRefinement: the step equals EVAL. The integer arithmetic of Machine/Ops.lean and the bit-vector bodies of
Machine/Datapath.lean are compared piece by piece, first on the decode side, then on the encode side, and the dispatch
on the operation word joins them. -/

namespace Sys2Proof.Machine

/-! ### The concatenations and extensions of the pseudocode (R80, R81, R84 to R87) -/

/-- The 16-bit concatenation is the rank-weighted sum (table of R80). -/
theorem toNat_mux16 (ord : Order) (b : LaneWord) :
    (mux16 (decide (ord = .big)) b).toNat = assembleBytes 2 ord b := by
  cases ord with
  | little => exact (toNat_two (lane b 1) (lane b 0)).trans (assembleBytes_two_little b).symm
  | big => exact (toNat_two (lane b 0) (lane b 1)).trans (assembleBytes_two_big b).symm

/-- The 32-bit concatenation is the rank-weighted sum (table of R80). -/
theorem toNat_mux32 (ord : Order) (b : LaneWord) :
    (mux32 (decide (ord = .big)) b).toNat = assembleBytes 4 ord b := by
  cases ord with
  | little => exact (toNat_four (lane b 3) (lane b 2) (lane b 1) (lane b 0)).trans (assembleBytes_four_little b).symm
  | big => exact (toNat_four (lane b 0) (lane b 1) (lane b 2) (lane b 3)).trans (assembleBytes_four_big b).symm

/-- SX of a vector's unsigned value is its two's-complement value (R81). -/
theorem signExtendValue_toNat {n : Nat} (hn : 0 < n) (u : BitVec n) : signExtendValue u.toNat n = u.toInt := by
  have hpow : (2 : Int) ^ n = 2 * 2 ^ (n - 1) := (mul_pow_sub_one hn.ne' 2).symm
  have hthreshold : (u.toNat : Int) > 2 ^ (n - 1) - 1 ↔ ¬2 * u.toNat < 2 ^ n := by
    zify
    rw [hpow]
    omega
  rw [signExtendValue, BitVec.toInt_eq_toNat_cond, if_congr hthreshold rfl rfl, ite_not, Nat.cast_pow, Nat.cast_ofNat]

theorem decodedValue_uint16 (ord : Order) (b : LaneWord) :
    decodedValue .uint16 ord b = ((mux16 (decide (ord = .big)) b).toNat : Int) := by
  rw [toNat_mux16]; rfl

theorem decodedValue_int16 (ord : Order) (b : LaneWord) :
    decodedValue .int16 ord b = (mux16 (decide (ord = .big)) b).toInt := by
  rw [← signExtendValue_toNat (by decide), toNat_mux16]; rfl

theorem decodedValue_uint32 (ord : Order) (b : LaneWord) :
    decodedValue .uint32 ord b = ((mux32 (decide (ord = .big)) b).toNat : Int) := by
  rw [toNat_mux32]; rfl

theorem decodedValue_int32 (ord : Order) (b : LaneWord) :
    decodedValue .int32 ord b = (mux32 (decide (ord = .big)) b).toInt := by
  rw [← signExtendValue_toNat (by decide), toNat_mux32]; rfl

/-- Narrowing U to the port is the pseudocode's zero extension. -/
theorem ofInt_toNat_eq_setWidth {n : Nat} (iw : Nat) (u : BitVec n) :
    BitVec.ofInt iw (u.toNat : Int) = u.setWidth iw := by
  rw [BitVec.ofInt_natCast, BitVec.ofNat_toNat]

theorem datapathDecode_of_length {iw lw : Nat} (k : Kind) (ord : Order) {len : BitVec lw} (b : LaneWord)
    (h : len.toNat = k.bytes) :
    (datapathDecode (decide (k.bytes = 4)) k.signed (decide (ord = .big)) len b : Outputs iw) =
      .decoded (decodedValue k ord b) := by
  cases k with
  | uint16 =>
    rw [decodedValue_uint16, Outputs.decoded, ofInt_toNat_eq_setWidth]
    exact if_neg (not_not_intro h)
  | int16 =>
    rw [decodedValue_int16]
    exact if_neg (not_not_intro h)
  | uint32 =>
    rw [decodedValue_uint32, Outputs.decoded, ofInt_toNat_eq_setWidth]
    exact if_neg (not_not_intro h)
  | int32 =>
    rw [decodedValue_int32]
    exact if_neg (not_not_intro h)

theorem datapathDecode_of_wrong_length {iw lw : Nat} (k : Kind) (signed big : Bool) {len : BitVec lw} (b : LaneWord)
    (h : len.toNat ≠ k.bytes) :
    (datapathDecode (decide (k.bytes = 4)) signed big len b : Outputs iw) = .raised .invalidLength := by
  cases k <;> exact if_pos h

/-! ### The pattern and its lanes (R111, R112, R114 to R117) -/

/-- The pattern of V is V narrowed to n bits (R111). -/
theorem patternOf_eq_toNat_ofInt (k : Kind) (v : Int) : patternOf k v = (BitVec.ofInt k.bits v).toNat := by
  simp [patternOf, BitVec.toNat_ofInt]

/-- The pattern of the operand port's V is the port's low n bits (R111). -/
theorem patternOf_toInt {iw n : Nat} {k : Kind} (hk : k.bits = n) (hn : n ≤ iw) (v : BitVec iw) :
    patternOf k v.toInt = (v.setWidth n).toNat := by
  subst hk
  rw [patternOf_eq_toNat_ofInt, ← BitVec.signExtend_eq_setWidth_of_le v hn, BitVec.signExtend]

/-- A byte of the encoded sequence is a field of the pattern (R112). -/
theorem encodedByte_toNat_eq_extractLsb' {w : Nat} (n : Nat) (ord : Order) (p : BitVec w) (i : Nat) :
    encodedByte n ord p.toNat i = p.extractLsb' (8 * rank n ord i) 8 := by
  apply BitVec.eq_of_toNat_eq
  rw [encodedByte_toNat, BitVec.extractLsb'_toNat, Nat.shiftRight_eq_div_pow]

/-- Two bytes widened to the lanes leave lanes 2 and 3 zero (R113). -/
theorem setWidth_two (a b : Byte) : (a ++ b).setWidth 32 = packLanes [b, a] := by
  have hlt : a.toNat * 256 + b.toNat < 2 ^ 32 := by
    have := a.isLt
    have := b.isLt
    omega
  apply BitVec.eq_of_toNat_eq
  refine Eq.trans ?_ (toNat_four 0 0 a b).symm
  rw [BitVec.toNat_setWidth, toNat_two, Nat.mod_eq_of_lt hlt]
  simp

/-- The 16-bit lanes of the pseudocode are the encoded sequence on the lanes (table of R112, R113). -/
theorem demux16_eq_packLanes (ord : Order) (p : BitVec 16) :
    demux16 (decide (ord = .big)) p = packLanes ((List.range 2).map (encodedByte 2 ord p.toNat)) := by
  simp only [List.range, List.range.loop, List.map, encodedByte_toNat_eq_extractLsb']
  cases ord with
  | little => exact setWidth_two _ _
  | big => exact setWidth_two _ _

/-- The 32-bit lanes of the pseudocode are the encoded sequence on the lanes (table of R112). -/
theorem demux32_eq_packLanes (ord : Order) (p : BitVec 32) :
    demux32 (decide (ord = .big)) p = packLanes ((List.range 4).map (encodedByte 4 ord p.toNat)) := by
  simp only [List.range, List.range.loop, List.map, encodedByte_toNat_eq_extractLsb']
  cases ord with
  | little => exact (lanes_append p).symm
  | big => rfl

theorem packLanes_encodedBytes_two {iw : Nat} {k : Kind} (hk : k.bytes = 2) (hiw : 16 ≤ iw) (ord : Order)
    (v : BitVec iw) :
    packLanes (encodedBytes k ord v.toInt) = demux16 (decide (ord = .big)) (v.setWidth 16) := by
  rw [demux16_eq_packLanes, encodedBytes, patternOf_toInt (n := 16) (by rw [Kind.bits, hk]) hiw, hk]

theorem packLanes_encodedBytes_four {iw : Nat} {k : Kind} (hk : k.bytes = 4) (hiw : 32 ≤ iw) (ord : Order)
    (v : BitVec iw) :
    packLanes (encodedBytes k ord v.toInt) = demux32 (decide (ord = .big)) (v.setWidth 32) := by
  rw [demux32_eq_packLanes, encodedBytes, patternOf_toInt (n := 32) (by rw [Kind.bits, hk]) hiw, hk]

/-- ENCODE's range test, written out in the numbers of R33, is the range check of R110. -/
theorem datapathEncode_eq {iw : Nat} (k : Kind) (big : Bool) (v : BitVec iw) :
    datapathEncode (decide (k.bytes = 4)) k.signed big v =
      if k.min ≤ v.toInt ∧ v.toInt ≤ k.max then
        { rOut := 0
          bOut := if k.bytes = 4 then demux32 big (v.setWidth 32) else demux16 big (v.setWidth 16)
          lenOut := BitVec.ofNat 3 k.bytes
          err := .ok }
      else .raised .outOfRange := by
  cases k <;> exact if_congr decide_eq_true_iff rfl rfl

theorem datapathEncode_of_inRange {iw : Nat} (hiw : 32 ≤ iw) (k : Kind) (ord : Order) (v : BitVec iw)
    (hr : k.min ≤ v.toInt ∧ v.toInt ≤ k.max) :
    datapathEncode (decide (k.bytes = 4)) k.signed (decide (ord = .big)) v =
      .encoded (encodedBytes k ord v.toInt) := by
  rw [datapathEncode_eq, if_pos hr, Outputs.encoded, encodedBytes_length]
  rcases kind_bytes_cases k with hk | hk
  · rw [packLanes_encodedBytes_two hk (by omega), if_neg (by omega)]
  · rw [packLanes_encodedBytes_four hk hiw, if_pos hk]

theorem datapathEncode_of_outOfRange {iw : Nat} (k : Kind) (big : Bool) (v : BitVec iw)
    (hr : ¬(k.min ≤ v.toInt ∧ v.toInt ≤ k.max)) :
    datapathEncode (decide (k.bytes = 4)) k.signed big v = .raised .outOfRange := by
  rw [datapathEncode_eq, if_neg hr]

/-! ### The dispatch (R61, R74) and the step -/

/-- Every operation word is the word of its operation (R66). -/
theorem encode_decode : ∀ w : OpWord, encode (decode w) = w := by decide

/-- The four bits of a word say the direction, width, signedness and order of its operation (R61 to R65). -/
theorem fieldBits_statement (i : Instr) : Laws.FieldBits.Statement i := by
  cases i with
  | decodeU16 ord => exact Laws.FieldBits.decodeU16 ord
  | decodeI16 ord => exact Laws.FieldBits.decodeI16 ord
  | decodeU32 ord => exact Laws.FieldBits.decodeU32 ord
  | decodeI32 ord => exact Laws.FieldBits.decodeI32 ord
  | encodeU16 ord => exact Laws.FieldBits.encodeU16 ord
  | encodeI16 ord => exact Laws.FieldBits.encodeI16 ord
  | encodeU32 ord => exact Laws.FieldBits.encodeU32 ord
  | encodeI32 ord => exact Laws.FieldBits.encodeI32 ord

/-- EVAL of a decode word is DECODE with the operation's width, signedness and order (R74). -/
theorem datapathEval_of_decode {iw lw : Nat} {op : OpWord} (h : (decode op).direction = .decode) (len : BitVec lw)
    (b : LaneWord) (v : BitVec iw) :
    datapathEval op len b v = datapathDecode (decide ((decode op).kind.bytes = 4)) (decode op).kind.signed
      (decide ((decode op).order = .big)) len b := by
  obtain ⟨hdir, hwide, hsigned, hord⟩ := fieldBits_statement (decode op)
  rw [encode_decode] at hdir hwide hsigned hord
  rw [datapathEval, hdir, hwide, hsigned, hord, h]
  rfl

/-- EVAL of an encode word is ENCODE with the operation's width, signedness and order (R74). -/
theorem datapathEval_of_encode {iw lw : Nat} {op : OpWord} (h : (decode op).direction = .encode) (len : BitVec lw)
    (b : LaneWord) (v : BitVec iw) :
    datapathEval op len b v = datapathEncode (decide ((decode op).kind.bytes = 4)) (decode op).kind.signed
      (decide ((decode op).order = .big)) v := by
  obtain ⟨hdir, hwide, hsigned, hord⟩ := fieldBits_statement (decode op)
  rw [encode_decode] at hdir hwide hsigned hord
  rw [datapathEval, hdir, hwide, hsigned, hord, h]
  rfl

/-- A decode of driven operands drives DECODE's outputs. -/
theorem evalDecode_eq_datapathDecode {k : Kind} (ord : Order) {s : State} (hl : s.inputs.lenIn.allHeld = true)
    (hb : seqLen s = k.bytes → lanesHeld k.bytes s.inputs.bIn = true) :
    evalDecode k ord s = .next (s.drive (datapathDecode (decide (k.bytes = 4)) k.signed (decide (ord = .big))
      s.inputs.lenIn.value s.inputs.bIn.value)) := by
  by_cases hn : seqLen s = k.bytes
  · rw [evalDecode_of_length hl hn (hb hn), datapathDecode_of_length k ord _ hn]
  · rw [evalDecode_of_wrong_length hl hn, datapathDecode_of_wrong_length k _ _ _ hn]

/-- An encode of a driven operand drives ENCODE's outputs. -/
theorem evalEncode_eq_datapathEncode (k : Kind) (ord : Order) {s : State} (hv : s.inputs.vIn.allHeld = true) :
    evalEncode k ord s = .next (s.drive (datapathEncode (decide (k.bytes = 4)) k.signed (decide (ord = .big))
      s.inputs.vIn.value)) := by
  by_cases hr : k.min ≤ intOperand s ∧ intOperand s ≤ k.max
  · rw [evalEncode_of_inRange hv hr, datapathEncode_of_inRange (by decide) k ord _ hr, intOperand]
  · rw [evalEncode_of_outOfRange hv hr, datapathEncode_of_outOfRange k _ _ hr]

theorem operandsHeld_decode_iff {i : Instr} (h : i.direction = .decode) (ins : Inputs) :
    operandsHeld i ins = true ↔
      ins.lenIn.allHeld = true ∧
        (ins.lenIn.value.toNat = i.kind.bytes → lanesHeld i.kind.bytes ins.bIn = true) := by
  simp [operandsHeld, h, ← imp_iff_not_or]

theorem operandsHeld_encode_iff {i : Instr} (h : i.direction = .encode) (ins : Inputs) :
    operandsHeld i ins = true ↔ ins.vIn.allHeld = true := by
  simp only [operandsHeld, h]

/-- A step on inputs whose read bits are all driven is EVAL (R28, R74, R174). -/
theorem step_of_evaluable {s : State} (h : s.inputs.evaluable = true) : step s = .next (s.drive s.evalInputs) := by
  obtain ⟨hop, hread⟩ := Bool.and_eq_true_iff.mp h
  have hstep : step s = exec (decode s.inputs.op.value) s := evaluate_of_presented (if_pos hop)
  rcases instr_cases (decode s.inputs.op.value) with ⟨hdir, hi⟩ | ⟨hdir, hi⟩
  · obtain ⟨hlen, hlanes⟩ := (operandsHeld_decode_iff hdir _).mp hread
    rw [hstep, State.evalInputs, datapathEval_of_decode hdir, congrArg (exec · s) hi, exec_decodeOf]
    exact evalDecode_eq_datapathDecode _ hlen hlanes
  · have hv := (operandsHeld_encode_iff hdir _).mp hread
    rw [hstep, State.evalInputs, datapathEval_of_encode hdir, congrArg (exec · s) hi, exec_encodeOf]
    exact evalEncode_eq_datapathEncode _ _ hv

theorem kind_bytes_le_four (k : Kind) : k.bytes ≤ 4 := by rcases kind_bytes_cases k with h | h <;> omega

/-- Inputs with every bit driven have every read bit driven. -/
theorem evaluable_of_fullyHeld {ins : Inputs} (h : ins.fullyHeld = true) : ins.evaluable = true := by
  simp only [Inputs.fullyHeld, Bool.and_eq_true] at h
  obtain ⟨⟨⟨hop, hlen⟩, hb⟩, hv⟩ := h
  refine Bool.and_eq_true_iff.mpr ⟨hop, ?_⟩
  rcases instr_cases (decode ins.op.value) with ⟨hdir, -⟩ | ⟨hdir, -⟩
  · exact (operandsHeld_decode_iff hdir ins).mpr ⟨hlen, fun _ => lanesHeld_of_allHeld (kind_bytes_le_four _) hb⟩
  · exact (operandsHeld_encode_iff hdir ins).mpr hv

/-- Settles O25: on driven inputs the step runs the operation its word decodes to; that operation's integer
arithmetic is DECODE's concatenation and extension, or ENCODE's range test and byte lanes. -/
theorem stepIsTheBitVectorEval : Obligations.StepIsTheBitVectorEval :=
  fun _ h => step_of_evaluable (evaluable_of_fullyHeld h)

end Sys2Proof.Machine
end

section
/-! PROOFS. Idempotence: a step answers a next state exactly on inputs whose read bits are all driven, and that state is
the inputs with EVAL on the outputs (20_memory.md R49). -/

namespace Sys2Proof.Machine

theorem presentedOp_eq_some_iff {s : State} {i : Instr} :
    presentedOp s = some i ↔ s.inputs.op.allHeld = true ∧ decode s.inputs.op.value = i := by
  rw [presentedOp, Option.ite_none_right_eq_some, Option.some_inj]

/-- An operation that answers a next state found every bit it reads driven (R174). -/
theorem operandsHeld_of_exec_next {i : Instr} {s t : State} (h : exec i s = .next t) :
    operandsHeld i s.inputs = true := by
  rcases instr_cases i with ⟨hdir, hi⟩ | ⟨hdir, hi⟩ <;> rw [hi] at h
  · rw [exec_decodeOf] at h
    obtain ⟨hlen, ⟨-, hlanes, -⟩ | ⟨hwrong, -⟩⟩ := evalDecode_next h
    · exact (operandsHeld_decode_iff hdir _).mpr ⟨hlen, fun _ => hlanes⟩
    · exact (operandsHeld_decode_iff hdir _).mpr ⟨hlen, fun hlength => absurd hlength hwrong⟩
  · rw [exec_encodeOf] at h
    obtain ⟨hv, -⟩ := evalEncode_next h
    exact (operandsHeld_encode_iff hdir _).mpr hv

theorem evaluable_of_step_next {s t : State} (h : step s = .next t) : s.inputs.evaluable = true := by
  obtain ⟨i, hop, hexec⟩ := evaluate_next h
  obtain ⟨hheld, rfl⟩ := presentedOp_eq_some_iff.mp hop
  exact Bool.and_eq_true_iff.mpr ⟨hheld, operandsHeld_of_exec_next hexec⟩

/-- Everything a step that answers a next state can have done (R28, R174). -/
theorem step_eq_next_iff {s t : State} :
    step s = .next t ↔ s.inputs.evaluable = true ∧ t = s.drive s.evalInputs := by
  constructor
  · intro h
    have heval := evaluable_of_step_next h
    rw [step_of_evaluable heval] at h
    cases h
    exact ⟨heval, rfl⟩
  · rintro ⟨heval, rfl⟩
    exact step_of_evaluable heval

@[simp] theorem evalInputs_drive (s : State) (o : Outputs 64) : (s.drive o).evalInputs = s.evalInputs := rfl

/-- The outputs are settled once the block has driven EVAL of its inputs. -/
theorem settled_drive_evalInputs {s : State} (h : s.inputs.evaluable = true) : (s.drive s.evalInputs).settled := by
  rw [State.settled, drive_inputs, if_pos h, drive_outputs, evalInputs_drive]

/-- Settles O28: a step drives EVAL of inputs it does not write, and EVAL reads no output, so the next step drives the
same again. -/
theorem evaluationSettlesAndIsIdempotent : Obligations.EvaluationSettlesAndIsIdempotent := by
  intro s t h
  obtain ⟨heval, rfl⟩ := step_eq_next_iff.mp h
  refine ⟨drive_inputs s _, settled_drive_evalInputs heval, step_eq_next_iff.mpr ⟨heval, ?_⟩⟩
  rw [evalInputs_drive, drive_drive]

end Sys2Proof.Machine
end

section
/-! PROOFS. OpcodeMap: decoding undoes encoding, so each row of the opcode map is the word of the operation it names
(30_encoding.md R66). -/

namespace Sys2Proof.Machine

/-- The word of an operation decodes to it: `op[3:1]` selects the operation and `op[0]` its order (R65, R66). -/
@[simp] theorem decode_encode (i : Instr) : decode (encode i) = i := by
  rcases i with o | o | o | o | o | o | o | o
  all_goals cases o <;> rfl

/-- Settles O37: the word in each row is the encoding of the operation beside it, and decoding undoes encoding. -/
theorem opcodeMapIsAsTabled : Obligations.OpcodeMapIsAsTabled :=
  ⟨decode_encode (.decodeU16 .little), decode_encode (.decodeU16 .big),
    decode_encode (.decodeI16 .little), decode_encode (.decodeI16 .big),
    decode_encode (.decodeU32 .little), decode_encode (.decodeU32 .big),
    decode_encode (.decodeI32 .little), decode_encode (.decodeI32 .big),
    decode_encode (.encodeU16 .little), decode_encode (.encodeU16 .big),
    decode_encode (.encodeI16 .little), decode_encode (.encodeI16 .big),
    decode_encode (.encodeU32 .little), decode_encode (.encodeU32 .big),
    decode_encode (.encodeI32 .little), decode_encode (.encodeI32 .big)⟩

end Sys2Proof.Machine
end

section
/-! PROOFS. DecodeResults: what each decode drives on `r_out` (40_decode.md R80, R81, R83 to R87). U as a weighted sum
and SX as two's complement come first, then the one drive lemma for each extension, then the four operations. -/

namespace Sys2Proof.Machine

/-! ### The assembled value U (R80) -/

/-- U fits in the operation's n bits (R80). -/
theorem assembleBytes_lt {n : Nat} (hn : n = 2 ∨ n = 4) (ord : Order) (b : LaneWord) :
    assembleBytes n ord b < 2 ^ (8 * n) := by
  rcases hn with rfl | rfl
  · exact toNat_mux16 ord b ▸ BitVec.isLt _
  · exact toNat_mux32 ord b ▸ BitVec.isLt _

/-- Settles O5: the rank and the sum are the definitions; the bound and the table hold because U is the unsigned value
of the concatenated bytes. -/
theorem assemblyIsTheRankWeightedSum : Obligations.AssemblyIsTheRankWeightedSum :=
  ⟨fun _ _ => ⟨rfl, rfl⟩, fun _ ord b hn => ⟨rfl, Nat.le_pred_of_lt (assembleBytes_lt hn ord b)⟩,
    fun b => ⟨(toNat_mux16 .little b).symm, (toNat_mux16 .big b).symm,
      (toNat_mux32 .little b).symm, (toNat_mux32 .big b).symm⟩⟩

/-! ### The sign extension SX (R81) -/

/-- The threshold of SX, compared in the naturals. -/
theorem signExtendValue_eq_ite (u n : Nat) :
    signExtendValue u n = if u > 2 ^ (n - 1) - 1 then (u : Int) - 2 ^ n else (u : Int) := by
  have hpos : 1 ≤ 2 ^ (n - 1) := Nat.one_le_two_pow
  have hthreshold : (u : Int) > 2 ^ (n - 1) - 1 ↔ u > 2 ^ (n - 1) - 1 := by zify [hpos]
  exact if_congr hthreshold rfl rfl

/-- The threshold condition of SX is the sign bit (R81). -/
theorem toNat_gt_iff_signBit {n : Nat} (u : BitVec n) :
    u.toNat > 2 ^ (n - 1) - 1 ↔ u.getLsbD (n - 1) = true := by
  have hpos : 0 < 2 ^ (n - 1) := Nat.two_pow_pos _
  rw [BitVec.getLsbD_last, decide_eq_true_iff]
  omega

/-- Settles O6: SX is `toInt`, whose range is the library's; both branches of SX are its threshold in the naturals. -/
theorem signExtensionIsTheTwosComplementValue : Obligations.SignExtensionIsTheTwosComplementValue := by
  intro n hn u
  have hsint : signExtendValue u.toNat n = u.toInt := signExtendValue_toNat (by omega) u
  refine ⟨fun hle => ?_, fun hgt => ?_, hsint, ?_, ?_, toNat_gt_iff_signBit u⟩
  · rw [signExtendValue_eq_ite, if_neg (Nat.not_lt.mpr hle)]
  · rw [signExtendValue_eq_ite, if_pos hgt]
  · exact hsint ▸ BitVec.le_toInt u
  · exact hsint ▸ BitVec.toInt_le

/-! ### Driving U extended to 64 bits (R83) -/

/-- Zero extension to a wider word keeps the unsigned value. -/
theorem toInt_setWidth_of_lt {m n : Nat} (h : n < m) (u : BitVec n) : (u.setWidth m).toInt = u.toNat := by
  rw [← BitVec.setWidth'_eq h.le, BitVec.toInt_setWidth'_of_lt h]

/-- A decode whose value is an unsigned vector drives the vector zero-extended. -/
theorem evalDecode_zeroExtends {k : Kind} {ord : Order} {s : State} {n : Nat} {u : BitVec n}
    (hl : s.inputs.lenIn.allHeld = true) (hb : lanesHeld k.bytes s.inputs.bIn = true) (hn : seqLen s = k.bytes)
    (hu : decodedValue k ord s.inputs.bIn.value = u.toNat) :
    evalDecode k ord s =
      .next { s with outputs := some { rOut := u.setWidth 64, bOut := 0, lenOut := 0, err := .ok } } := by
  rw [evalDecode_of_length hl hn hb, hu, Outputs.decoded, ofInt_toNat_eq_setWidth, State.drive]

/-- A decode whose value is a two's-complement vector drives the vector sign-extended. -/
theorem evalDecode_signExtends {k : Kind} {ord : Order} {s : State} {n : Nat} {u : BitVec n}
    (hl : s.inputs.lenIn.allHeld = true) (hb : lanesHeld k.bytes s.inputs.bIn = true) (hn : seqLen s = k.bytes)
    (hu : decodedValue k ord s.inputs.bIn.value = u.toInt) :
    evalDecode k ord s =
      .next { s with outputs := some { rOut := u.signExtend 64, bOut := 0, lenOut := 0, err := .ok } } := by
  rw [evalDecode_of_length hl hn hb, hu, Outputs.decoded, State.drive, BitVec.signExtend]

/-- U as n bits has the unsigned value U. -/
theorem toNat_ofNat_assembleBytes (k : Kind) (ord : Order) (b : LaneWord) :
    (BitVec.ofNat k.bits (assembleBytes k.bytes ord b)).toNat = assembleBytes k.bytes ord b :=
  BitVec.toNat_ofNat .. ▸ Nat.mod_eq_of_lt (assembleBytes_lt (kind_bytes_cases k) ord b)

/-- R of an unsigned decode is the unsigned value of U as n bits (R83). -/
theorem decodedValue_of_unsigned {k : Kind} (hk : k.signed = false) (ord : Order) (b : LaneWord) :
    decodedValue k ord b = (BitVec.ofNat k.bits (assembleBytes k.bytes ord b)).toNat := by
  rw [toNat_ofNat_assembleBytes, decodedValue, hk, if_neg Bool.false_ne_true]

/-- R of a signed decode is SX(U, n), the two's-complement value of U as n bits (R81, R83). -/
theorem decodedValue_of_signed {k : Kind} (hk : k.signed = true) (ord : Order) (b : LaneWord) :
    decodedValue k ord b = (BitVec.ofNat k.bits (assembleBytes k.bytes ord b)).toInt := by
  have hpos : 0 < k.bits := by cases k <;> decide
  rw [← signExtendValue_toNat hpos, toNat_ofNat_assembleBytes, decodedValue, if_pos hk]

theorem kind_bits_lt (k : Kind) : k.bits < 64 := by cases k <;> decide

/-- Settles O9: R is the unsigned or two's-complement value of U as n bits, and extending those bits to 64 keeps it. -/
theorem decodeDrivesExtendedResult : Obligations.DecodeDrivesExtendedResult := by
  intro k ord s hl hb
  rw [exec_decodeOf]
  refine ⟨fun hn => ?_, evalDecode_of_wrong_length hl⟩
  cases hk : k.signed with
  | false =>
    refine ⟨_, evalDecode_zeroExtends hl hb hn (decodedValue_of_unsigned hk ord _), fun _ => ⟨rfl, ?_⟩, nofun⟩
    rw [toInt_setWidth_of_lt (kind_bits_lt k), toNat_ofNat_assembleBytes]
  | true =>
    refine ⟨_, evalDecode_signExtends hl hb hn (decodedValue_of_signed hk ord _), nofun, fun _ => ⟨rfl, ?_⟩⟩
    rw [BitVec.toInt_signExtend_of_le (kind_bits_lt k).le, ← decodedValue_of_signed hk, decodedValue, if_pos hk]

/-! ### The four operations (R84 to R87) -/

/-- Zero extension to 64 bits lands in the unsigned range (R84, R86). -/
theorem toInt_setWidth_bounds {n : Nat} (hn : n < 64) (u : BitVec n) :
    0 ≤ (u.setWidth 64).toInt ∧ (u.setWidth 64).toInt ≤ 2 ^ n - 1 := by
  rw [toInt_setWidth_of_lt hn]
  exact ⟨Int.natCast_nonneg _, Int.le_sub_one_of_lt (mod_cast u.isLt)⟩

/-- Sign extension to 64 bits carries U, less 2^n where U exceeds the threshold (R85, R87). -/
theorem toInt_signExtend_eq_ite {n : Nat} (hpos : 0 < n) (hn : n < 64) (u : BitVec n) :
    (u.signExtend 64).toInt = if u.toNat > 2 ^ (n - 1) - 1 then (u.toNat : Int) - 2 ^ n else (u.toNat : Int) := by
  rw [BitVec.toInt_signExtend_of_le hn.le, ← signExtendValue_toNat hpos, signExtendValue_eq_ite]

/-- Sign extension to 64 bits lands in the signed range (R85, R87). -/
theorem toInt_signExtend_bounds {n : Nat} (hn : n < 64) (u : BitVec n) :
    -2 ^ (n - 1) ≤ (u.signExtend 64).toInt ∧ (u.signExtend 64).toInt ≤ 2 ^ (n - 1) - 1 := by
  rw [BitVec.toInt_signExtend_of_le hn.le]
  exact ⟨BitVec.le_toInt u, BitVec.toInt_le⟩

/-- Settles O1: `decode_u16` drives the 16-bit concatenation of its order, zero-extended. -/
theorem decodeU16ZeroExtendsTwoBytes : Obligations.DecodeU16ZeroExtendsTwoBytes := by
  refine ⟨decode_encode (.decodeU16 .little), decode_encode (.decodeU16 .big), fun ord s hl hb =>
    ⟨evalDecode_of_wrong_length (k := .uint16) hl, fun hn =>
      ⟨_, evalDecode_zeroExtends (k := .uint16) hl hb hn (decodedValue_uint16 ord _), ?_,
        toInt_setWidth_bounds (by decide) _⟩⟩⟩
  cases ord <;> rfl

/-- Settles O2: `decode_i16` drives the 16-bit concatenation of its order, sign-extended. -/
theorem decodeI16SignExtendsTwoBytes : Obligations.DecodeI16SignExtendsTwoBytes := by
  refine ⟨decode_encode (.decodeI16 .little), decode_encode (.decodeI16 .big), fun ord s hl hb =>
    ⟨evalDecode_of_wrong_length (k := .int16) hl, fun hn =>
      ⟨_, _, evalDecode_signExtends (k := .int16) hl hb hn (decodedValue_int16 ord _), ?_, rfl,
        toInt_signExtend_eq_ite (by decide) (by decide) _, toInt_signExtend_bounds (by decide) _⟩⟩⟩
  cases ord <;> rfl

/-- Settles O3: `decode_u32` drives the 32-bit concatenation of its order, zero-extended. -/
theorem decodeU32ZeroExtendsFourBytes : Obligations.DecodeU32ZeroExtendsFourBytes := by
  refine ⟨decode_encode (.decodeU32 .little), decode_encode (.decodeU32 .big), fun ord s hl hb =>
    ⟨evalDecode_of_wrong_length (k := .uint32) hl, fun hn =>
      ⟨_, evalDecode_zeroExtends (k := .uint32) hl hb hn (decodedValue_uint32 ord _), ?_,
        toInt_setWidth_bounds (by decide) _⟩⟩⟩
  cases ord <;> rfl

/-- Settles O4: `decode_i32` drives the 32-bit concatenation of its order, sign-extended. -/
theorem decodeI32SignExtendsFourBytes : Obligations.DecodeI32SignExtendsFourBytes := by
  refine ⟨decode_encode (.decodeI32 .little), decode_encode (.decodeI32 .big), fun ord s hl hb =>
    ⟨evalDecode_of_wrong_length (k := .int32) hl, fun hn =>
      ⟨_, _, evalDecode_signExtends (k := .int32) hl hb hn (decodedValue_int32 ord _), ?_, rfl,
        toInt_signExtend_eq_ite (by decide) (by decide) _, toInt_signExtend_bounds (by decide) _⟩⟩⟩
  cases ord <;> rfl

end Sys2Proof.Machine
end

section
/-! PROOFS. EncodeResults: the pattern of an in-range value and the lanes an encode drives (41_encode.md R110 to R117).
The pattern comes first, then the lanes by rank, then what a decode makes of them, then the four operations. -/

namespace Sys2Proof.Machine

/-! ### The ranges and the pattern P (R33, R111) -/

theorem bounds_of_unsigned {k : Kind} (hk : k.signed = false) {v : Int} (hr : k.min ≤ v ∧ v ≤ k.max) :
    0 ≤ v ∧ v < 2 ^ k.bits := by
  obtain ⟨hlo, hhi⟩ := hr
  cases k with
  | uint16 => exact ⟨hlo, Int.lt_add_one_of_le hhi⟩
  | uint32 => exact ⟨hlo, Int.lt_add_one_of_le hhi⟩
  | int16 => cases hk
  | int32 => cases hk

theorem bounds_of_signed {k : Kind} (hk : k.signed = true) {v : Int} (hr : k.min ≤ v ∧ v ≤ k.max) :
    -2 ^ (k.bits - 1) ≤ v ∧ v < 2 ^ (k.bits - 1) := by
  obtain ⟨hlo, hhi⟩ := hr
  cases k with
  | int16 => exact ⟨hlo, Int.lt_add_one_of_le hhi⟩
  | int32 => exact ⟨hlo, Int.lt_add_one_of_le hhi⟩
  | uint16 => cases hk
  | uint32 => cases hk

theorem kind_bits_pos (k : Kind) : 0 < k.bits := by cases k <;> decide

/-- uint(P) = V mod 2^n, in the integers (R111). -/
theorem natCast_patternOf (k : Kind) (v : Int) : (patternOf k v : Int) = v % 2 ^ k.bits :=
  Int.toNat_of_nonneg (Int.emod_nonneg v (by positivity))

/-- The pattern of a value that n bits hold unsigned is the value (R111). -/
theorem natCast_patternOf_of_nonneg {k : Kind} {v : Int} (h0 : 0 ≤ v) (hlt : v < 2 ^ k.bits) :
    (patternOf k v : Int) = v := by
  rw [natCast_patternOf, Int.emod_eq_of_lt h0 hlt]

/-- The pattern of a negative value is the value raised by 2^n (R111). -/
theorem natCast_patternOf_of_neg {k : Kind} {v : Int} (hlo : -2 ^ k.bits ≤ v) (hneg : v < 0) :
    (patternOf k v : Int) = v + 2 ^ k.bits := by
  rw [natCast_patternOf, ← Int.add_emod_right, Int.emod_eq_of_lt (by omega) (by omega)]

theorem ofNat_patternOf (k : Kind) (v : Int) : BitVec.ofNat k.bits (patternOf k v) = BitVec.ofInt k.bits v := by
  rw [patternOf_eq_toNat_ofInt, BitVec.ofNat_toNat, BitVec.setWidth_eq]

/-- The two's-complement value of a signed kind's pattern is the value: no information is lost (R111). -/
theorem toInt_ofNat_patternOf {k : Kind} (hk : k.signed = true) {v : Int} (hr : k.min ≤ v ∧ v ≤ k.max) :
    (BitVec.ofNat k.bits (patternOf k v)).toInt = v := by
  obtain ⟨hlo, hhi⟩ := bounds_of_signed hk hr
  rw [ofNat_patternOf, BitVec.toInt_ofInt_eq_self (kind_bits_pos k) hlo hhi]

/-- The unsigned value of an unsigned kind's pattern is the value (R111). -/
theorem natCast_patternOf_of_unsigned {k : Kind} (hk : k.signed = false) {v : Int} (hr : k.min ≤ v ∧ v ≤ k.max) :
    (patternOf k v : Int) = v := by
  obtain ⟨h0, hlt⟩ := bounds_of_unsigned hk hr
  exact natCast_patternOf_of_nonneg h0 hlt

/-- Settles O16: an in-range value lies within 2^n of its remainder, on the side its sign says. -/
theorem patternIsValueModuloWidth : Obligations.PatternIsValueModuloWidth := by
  intro k v hmin hmax
  refine ⟨natCast_patternOf k v, patternOf_lt k v, fun hk => natCast_patternOf_of_unsigned hk ⟨hmin, hmax⟩,
    fun hk => ?_⟩
  obtain ⟨hlo, hhi⟩ := bounds_of_signed hk ⟨hmin, hmax⟩
  have hfull : (2 : Int) ^ k.bits = 2 * 2 ^ (k.bits - 1) := (mul_pow_sub_one (kind_bits_pos k).ne' 2).symm
  refine ⟨fun h0 => natCast_patternOf_of_nonneg h0 ?_, fun hneg => natCast_patternOf_of_neg ?_ hneg,
    toInt_ofNat_patternOf hk ⟨hmin, hmax⟩⟩ <;> omega

/-! ### The lanes of a successful encode (R112, R113) -/

/-- An in-range encode drives its sequence on the lanes, its length, and zeros beside them (R113). -/
theorem evalEncode_drives {k : Kind} {ord : Order} {s : State} (hv : s.inputs.vIn.allHeld = true)
    (hr : k.min ≤ intOperand s ∧ intOperand s ≤ k.max) :
    evalEncode k ord s = .next { s with outputs := some {
      rOut := 0
      bOut := packLanes (encodedBytes k ord (intOperand s))
      lenOut := BitVec.ofNat 3 k.bytes
      err := .ok } } := by
  rw [evalEncode_of_inRange hv hr, Outputs.encoded, encodedBytes_length, State.drive]

/-- Lanes 0 to N-1 of an encode carry the ranked bytes of its pattern (R112). -/
theorem lane_packLanes_encodedBytes {k : Kind} {i : Nat} (hi : i < k.bytes) (ord : Order) (v : Int) :
    lane (packLanes (encodedBytes k ord v)) i = encodedByte k.bytes ord (patternOf k v) i := by
  rw [lane_packLanes _ _ (hi.trans_le (kind_bytes_le_four k)), encodedBytes_getD, if_pos hi]

/-- The lanes at and above N are zero (R113). -/
theorem lane_packLanes_encodedBytes_above {k : Kind} {i : Nat} (hi : k.bytes ≤ i) (hi4 : i < 4) (ord : Order)
    (v : Int) : lane (packLanes (encodedBytes k ord v)) i = 0 := by
  rw [lane_packLanes _ _ hi4, encodedBytes_getD, if_neg hi.not_gt]

/-- A ranked byte as the shift and mask of R112. -/
theorem encodedByte_toNat_eq_shiftRight_and (n : Nat) (ord : Order) (p i : Nat) :
    (encodedByte n ord p i).toNat = (p >>> (8 * rank n ord i)) &&& 0xFF := by
  rw [encodedByte_toNat, Nat.shiftRight_eq_div_pow]
  exact (Nat.and_two_pow_sub_one_eq_mod _ 8).symm

/-- Settles O17: the driven lanes are the encoded sequence, whose element i is the pattern's byte of rank i. -/
theorem encodeDrivesRankedLanes : Obligations.EncodeDrivesRankedLanes := by
  intro k ord s hv
  rw [exec_encodeOf]
  refine ⟨fun hr => ⟨_, evalEncode_drives hv hr, fun i hi => ?_,
    fun i hi hi4 => lane_packLanes_encodedBytes_above hi hi4 ord _⟩, evalEncode_of_outOfRange hv⟩
  rw [lane_packLanes_encodedBytes hi, encodedByte_toNat_eq_shiftRight_and]
  cases ord <;> rfl

/-! ### Decoding what an encode drives -/

/-- The bytes of a number, weighted by rank, sum to the number modulo 2^(8n): in Little order the partial sums are the
number's remainders, and Big order reverses the sum. -/
theorem sum_rankedBytes (n : Nat) (ord : Order) (p : Nat) :
    ∑ i ∈ Finset.range n, p / 2 ^ (8 * rank n ord i) % 256 * 2 ^ (8 * rank n ord i) = p % 2 ^ (8 * n) := by
  have hlittle : ∑ i ∈ Finset.range n, p / 2 ^ (8 * i) % 256 * 2 ^ (8 * i) = p % 2 ^ (8 * n) := by
    induction n with
    | zero => simp [Nat.mod_one]
    | succ n ih => rw [Finset.sum_range_succ, ih, mul_add, pow_add, Nat.mod_mul, mul_comm (2 ^ (8 * n))]; rfl
  cases ord with
  | little => exact hlittle
  | big => exact (Finset.sum_range_reflect (fun i => p / 2 ^ (8 * i) % 256 * 2 ^ (8 * i)) n).trans hlittle

/-- Assembling the lanes of an encode gives back its pattern. -/
theorem assembleBytes_packLanes_encodedBytes (k : Kind) (ord : Order) (v : Int) :
    assembleBytes k.bytes ord (packLanes (encodedBytes k ord v)) = patternOf k v := by
  calc assembleBytes k.bytes ord (packLanes (encodedBytes k ord v))
    _ = ∑ i ∈ Finset.range k.bytes,
          patternOf k v / 2 ^ (8 * rank k.bytes ord i) % 256 * 2 ^ (8 * rank k.bytes ord i) :=
        Finset.sum_congr rfl fun i hi => by
          rw [lane_packLanes_encodedBytes (Finset.mem_range.mp hi), encodedByte_toNat]
    _ = patternOf k v % 2 ^ k.bits := sum_rankedBytes k.bytes ord _
    _ = patternOf k v := Nat.mod_eq_of_lt (patternOf_lt k v)

/-- Decoding the lanes of an in-range encode gives back its value. -/
theorem decodedValue_packLanes_encodedBytes {k : Kind} (ord : Order) {v : Int} (hr : k.min ≤ v ∧ v ≤ k.max) :
    decodedValue k ord (packLanes (encodedBytes k ord v)) = v := by
  cases hk : k.signed with
  | false =>
    rw [decodedValue_of_unsigned hk, toNat_ofNat_assembleBytes, assembleBytes_packLanes_encodedBytes,
      natCast_patternOf_of_unsigned hk hr]
  | true => rw [decodedValue_of_signed hk, assembleBytes_packLanes_encodedBytes, toInt_ofNat_patternOf hk hr]

/-- A decode of the lanes an in-range encode drives delivers the encode's operand. -/
theorem evalDecode_of_encoded {k : Kind} {ord : Order} {s t : State}
    (hr : k.min ≤ intOperand s ∧ intOperand s ≤ k.max) (hl : t.inputs.lenIn.allHeld = true)
    (hn : seqLen t = k.bytes) (hb : t.inputs.bIn = heldPort (packLanes (encodedBytes k ord (intOperand s)))) :
    evalDecode k ord t =
      .next { t with outputs := some { rOut := s.inputs.vIn.value, bOut := 0, lenOut := 0, err := .ok } } := by
  have hlanes : lanesHeld k.bytes t.inputs.bIn = true :=
    lanesHeld_of_allHeld (kind_bytes_le_four k) (hb ▸ heldPort_allHeld _)
  rw [evalDecode_of_length hl hn hlanes, hb, heldPort_value, decodedValue_packLanes_encodedBytes ord hr,
    Outputs.decoded, intOperand, BitVec.ofInt_toInt, State.drive]

/-! ### The four operations (R114 to R117) -/

/-- The low n bits of `v_in`, as a number, are the pattern of the operand (R111). -/
theorem natCast_setWidth_vIn {k : Kind} {n : Nat} (hk : k.bits = n) (hn : n ≤ 64) (s : State) :
    ((s.inputs.vIn.value.setWidth n).toNat : Int) = patternOf k (intOperand s) := by
  rw [← patternOf_toInt hk hn, intOperand]

/-- An in-range 16-bit encode drives the bytes of `v_in[15:0]` (R114, R115). -/
theorem evalEncode_drives_two {k : Kind} (hk : k.bytes = 2) {ord : Order} {s : State}
    (hv : s.inputs.vIn.allHeld = true) (hr : k.min ≤ intOperand s ∧ intOperand s ≤ k.max) :
    evalEncode k ord s = .next { s with outputs := some {
      rOut := 0
      bOut := demux16 (decide (ord = .big)) (s.inputs.vIn.value.setWidth 16)
      lenOut := 2#3
      err := .ok } } := by
  rw [evalEncode_drives hv hr, intOperand, packLanes_encodedBytes_two hk (by decide), hk]

/-- An in-range 32-bit encode drives the bytes of `v_in[31:0]` (R116, R117). -/
theorem evalEncode_drives_four {k : Kind} (hk : k.bytes = 4) {ord : Order} {s : State}
    (hv : s.inputs.vIn.allHeld = true) (hr : k.min ≤ intOperand s ∧ intOperand s ≤ k.max) :
    evalEncode k ord s = .next { s with outputs := some {
      rOut := 0
      bOut := demux32 (decide (ord = .big)) (s.inputs.vIn.value.setWidth 32)
      lenOut := 4#3
      err := .ok } } := by
  rw [evalEncode_drives hv hr, intOperand, packLanes_encodedBytes_four hk (by decide), hk]

/-- Settles O12: the lanes are those of the 16-bit pattern, and decoding them gives back the operand. -/
theorem encodeU16LaysOutTwoBytes : Obligations.EncodeU16LaysOutTwoBytes := by
  refine ⟨decode_encode (.encodeU16 .little), decode_encode (.encodeU16 .big), rfl, fun ord s hv =>
    ⟨evalEncode_of_outOfRange (k := .uint16) hv, fun hr =>
      ⟨_, _, evalEncode_drives_two (k := .uint16) rfl hv hr, BitVec.setWidth_eq_extractLsb' (by decide),
        (natCast_setWidth_vIn (k := .uint16) rfl (by decide) s).trans (natCast_patternOf_of_unsigned rfl hr), ?_,
        fun t hlen hb => ?_⟩⟩⟩
  · cases ord <;> rfl
  · rw [← packLanes_encodedBytes_two (k := .uint16) rfl (by decide)] at hb
    exact evalDecode_of_encoded hr (hlen ▸ heldPort_allHeld _) (congrArg (·.value.toNat) hlen) hb

/-- Settles O13: the lanes are those of the 16-bit pattern, which is V mod 2^16. -/
theorem encodeI16LaysOutTwoBytes : Obligations.EncodeI16LaysOutTwoBytes := by
  refine ⟨decode_encode (.encodeI16 .little), decode_encode (.encodeI16 .big), fun ord s hv =>
    ⟨evalEncode_of_outOfRange (k := .int16) hv, fun hr =>
      ⟨_, (evalEncode_drives_two (k := .int16) rfl hv hr).trans ?_, BitVec.setWidth_eq_extractLsb' (by decide),
        (natCast_setWidth_vIn (k := .int16) rfl (by decide) s).trans (natCast_patternOf .int16 _)⟩⟩⟩
  cases ord <;> rfl

/-- Settles O14: the lanes are those of the 32-bit pattern, which is V. -/
theorem encodeU32LaysOutFourBytes : Obligations.EncodeU32LaysOutFourBytes := by
  refine ⟨decode_encode (.encodeU32 .little), decode_encode (.encodeU32 .big), fun ord s hv =>
    ⟨evalEncode_of_outOfRange (k := .uint32) hv, fun hr =>
      ⟨_, (evalEncode_drives_four (k := .uint32) rfl hv hr).trans ?_, BitVec.setWidth_eq_extractLsb' (by decide),
        (natCast_setWidth_vIn (k := .uint32) rfl (by decide) s).trans (natCast_patternOf_of_unsigned rfl hr)⟩⟩⟩
  cases ord <;> rfl

/-- Settles O15: the lanes are those of the 32-bit pattern, which is V mod 2^32. -/
theorem encodeI32LaysOutFourBytes : Obligations.EncodeI32LaysOutFourBytes := by
  refine ⟨decode_encode (.encodeI32 .little), decode_encode (.encodeI32 .big), fun ord s hv =>
    ⟨evalEncode_of_outOfRange (k := .int32) hv, fun hr =>
      ⟨_, (evalEncode_drives_four (k := .int32) rfl hv hr).trans ?_, BitVec.setWidth_eq_extractLsb' (by decide),
        (natCast_setWidth_vIn (k := .int32) rfl (by decide) s).trans (natCast_patternOf .int32 _)⟩⟩⟩
  cases ord <;> rfl

end Sys2Proof.Machine
end

section
/-! PROOFS. Errors: which errors each direction raises, exactly when, and what stands on the ports beside them
(60_exceptions.md R142 to R145). -/

namespace Sys2Proof.Machine

/-! ### When an error is raised (R142, R143) -/

/-- A driven decode raises InvalidLength by the length check alone (R82, R142). -/
theorem evalDecode_invalidLength_iff {k : Kind} {ord : Order} {s : State} (hl : s.inputs.lenIn.allHeld = true)
    (hb : lanesHeld k.bytes s.inputs.bIn = true) :
    ∃ o : Outputs 64, evalDecode k ord s = .next (s.drive o) ∧ (o.err = .invalidLength ↔ seqLen s ≠ k.bytes) := by
  by_cases hn : seqLen s = k.bytes
  · exact ⟨_, evalDecode_of_length hl hn hb, iff_of_false nofun (not_not_intro hn)⟩
  · exact ⟨_, evalDecode_of_wrong_length hl hn, iff_of_true rfl hn⟩

/-- A driven encode raises OutOfRange by the range check alone (R110, R143). -/
theorem evalEncode_outOfRange_iff {k : Kind} {ord : Order} {s : State} (hv : s.inputs.vIn.allHeld = true) :
    ∃ o : Outputs 64, evalEncode k ord s = .next (s.drive o) ∧
      (o.err = .outOfRange ↔ ¬(k.min ≤ intOperand s ∧ intOperand s ≤ k.max)) := by
  by_cases hr : k.min ≤ intOperand s ∧ intOperand s ≤ k.max
  · exact ⟨_, evalEncode_of_inRange hv hr, iff_of_false nofun (not_not_intro hr)⟩
  · exact ⟨_, evalEncode_of_outOfRange hv hr, iff_of_true rfl hr⟩

/-- Settles O7: the length check compares `len_in` with the kind's N, which is the number in each row. -/
theorem decodeRaisesInvalidLengthExactlyOnWrongLength :
    Obligations.DecodeRaisesInvalidLengthExactlyOnWrongLength := by
  intro k ord s hl hb
  rw [exec_decodeOf]
  obtain ⟨o, hexec, herr⟩ := evalDecode_invalidLength_iff (ord := ord) hl hb
  refine ⟨o, hexec, herr.trans ?_⟩
  cases k <;> exact Iff.rfl

/-- Settles O18: the range check compares `v_in` with the kind's bounds, which are the numbers in each row. -/
theorem encodeRaisesOutOfRangeExactlyOutsideRange : Obligations.EncodeRaisesOutOfRangeExactlyOutsideRange := by
  intro k ord s hv
  rw [exec_encodeOf]
  obtain ⟨o, hexec, herr⟩ := evalEncode_outOfRange_iff (k := k) (ord := ord) hv
  refine ⟨o, hexec, herr.trans ?_⟩
  cases k <;> exact Iff.rfl

/-! ### What an operation can raise (R144, R145) -/

/-- A decode succeeds or drives the outputs of InvalidLength. -/
theorem evalDecode_next_ok_or_raised {k : Kind} {ord : Order} {s t : State} (h : evalDecode k ord s = .next t) :
    ∃ o : Outputs 64, t = s.drive o ∧ (o.err = .ok ∨ o = .raised .invalidLength) := by
  obtain ⟨-, ⟨-, -, ht⟩ | ⟨-, ht⟩⟩ := evalDecode_next h
  · exact ⟨_, ht, .inl rfl⟩
  · exact ⟨_, ht, .inr rfl⟩

/-- An encode succeeds or drives the outputs of OutOfRange. -/
theorem evalEncode_next_ok_or_raised {k : Kind} {ord : Order} {s t : State} (h : evalEncode k ord s = .next t) :
    ∃ o : Outputs 64, t = s.drive o ∧ (o.err = .ok ∨ o = .raised .outOfRange) := by
  obtain ⟨-, ⟨-, ht⟩ | ⟨-, ht⟩⟩ := evalEncode_next h
  · exact ⟨_, ht, .inl rfl⟩
  · exact ⟨_, ht, .inr rfl⟩

/-- Outputs that succeed or raise one error report no other error. -/
theorem err_ne_of_ok_or_raised {iw : Nat} {o : Outputs iw} {e e' : Status} (h : o.err = .ok ∨ o = .raised e)
    (hok : Status.ok ≠ e') (he : e ≠ e') : o.err ≠ e' := by
  rcases h with herr | rfl
  · exact herr.trans_ne hok
  · exact he

/-- Settles O22: a decode's only error is InvalidLength and an encode's only error is OutOfRange. -/
theorem eachDirectionHasOneError : Obligations.EachDirectionHasOneError := by
  intro k ord s t
  rw [exec_decodeOf, exec_encodeOf]
  constructor
  · intro h
    obtain ⟨o, ht, ho⟩ := evalDecode_next_ok_or_raised h
    exact ⟨o, ht, err_ne_of_ok_or_raised ho nofun nofun⟩
  · intro h
    obtain ⟨o, ht, ho⟩ := evalEncode_next_ok_or_raised h
    exact ⟨o, ht, err_ne_of_ok_or_raised ho nofun nofun⟩

/-- Every operation succeeds or drives the outputs of one of the two errors. -/
theorem exec_next_ok_or_raised {i : Instr} {s t : State} (h : exec i s = .next t) :
    ∃ o : Outputs 64, t = s.drive o ∧ (o.err = .ok ∨ o = .raised .invalidLength ∨ o = .raised .outOfRange) := by
  rcases instr_cases i with ⟨-, hi⟩ | ⟨-, hi⟩ <;> rw [hi] at h
  · rw [exec_decodeOf] at h
    obtain ⟨o, ht, ho⟩ := evalDecode_next_ok_or_raised h
    exact ⟨o, ht, ho.imp_right .inl⟩
  · rw [exec_encodeOf] at h
    obtain ⟨o, ht, ho⟩ := evalEncode_next_ok_or_raised h
    exact ⟨o, ht, ho.imp_right .inr⟩

/-- Settles O23: outputs whose `err` is not ok are those of a raised error, which are zeros and its code. -/
theorem errorsDeliverNoResult : Obligations.ErrorsDeliverNoResult := by
  intro i s t h
  obtain ⟨o, ht, ho⟩ := exec_next_ok_or_raised h
  refine ⟨o, ht, fun herr => ?_⟩
  rcases ho with hok | rfl | rfl
  · exact absurd hok herr
  · exact ⟨rfl, rfl, rfl, .inl ⟨rfl, rfl⟩⟩
  · exact ⟨rfl, rfl, rfl, .inr ⟨rfl, rfl⟩⟩

end Sys2Proof.Machine
end

section
/-! PROOFS. History: presenting inputs leaves nothing of the state before it, so no evaluation depends on the ones
before (60_exceptions.md R149). -/

namespace Sys2Proof.Machine

/-- No evaluation reads the old outputs (R20). -/
@[simp] theorem evaluate_of_outputs (s : State) (o : Option (Outputs 64)) :
    evaluate { s with outputs := o } = evaluate s := by
  rw [evaluate, evaluate, presentedOp_of_outputs]
  cases presentedOp s with
  | none => rfl
  | some i => exact exec_of_outputs i s o

/-- Settling overwrites the old outputs, whether the evaluation answers or faults. -/
@[simp] theorem settle_of_outputs (s : State) (o : Option (Outputs 64)) :
    State.settle { s with outputs := o } = s.settle := by
  rw [State.settle, State.settle, evaluate_of_outputs]

/-- The state after presenting inputs is a function of the inputs (R39). -/
theorem present_eq_present (s t : State) (ins : Inputs) : s.present ins = t.present ins :=
  settle_of_outputs { t with inputs := ins } s.outputs

/-- Settles O35, by induction on the list of inputs: each presentation could as well have been made to the reset
block. -/
theorem evaluationsAreIndependentOfHistory : Obligations.EvaluationsAreIndependentOfHistory := by
  intro s inss
  induction inss generalizing s with
  | nil => rfl
  | cons ins rest ih => rw [hostTrace, List.map_cons, ih, present_eq_present s State.reset]

end Sys2Proof.Machine
end

section
/-! PROOFS. KindRanges: the table of the four kinds and its powers of two (10_state.md R33). -/

namespace Sys2Proof.Machine

theorem kind_min_of_unsigned {k : Kind} (hk : k.signed = false) : k.min = 0 := by
  cases k with
  | uint16 => rfl
  | uint32 => rfl
  | int16 => cases hk
  | int32 => cases hk

theorem kind_max_of_unsigned {k : Kind} (hk : k.signed = false) : k.max = 2 ^ k.bits - 1 := by
  cases k with
  | uint16 => rfl
  | uint32 => rfl
  | int16 => cases hk
  | int32 => cases hk

theorem kind_min_of_signed {k : Kind} (hk : k.signed = true) : k.min = -2 ^ (k.bits - 1) := by
  cases k with
  | int16 => rfl
  | int32 => rfl
  | uint16 => cases hk
  | uint32 => cases hk

theorem kind_max_of_signed {k : Kind} (hk : k.signed = true) : k.max = 2 ^ (k.bits - 1) - 1 := by
  cases k with
  | int16 => rfl
  | int32 => rfl
  | uint16 => cases hk
  | uint32 => cases hk

/-- Every kind's range lies between the least signed and the greatest unsigned 32-bit value (R35). -/
theorem kind_range_within (k : Kind) : -2147483648 ≤ k.min ∧ k.max ≤ 4294967295 := by cases k <;> decide

/-- Settles O39: each row is the definition's, and the power-of-two columns follow from signedness. -/
theorem kindRangesAreAsTabled : Obligations.KindRangesAreAsTabled :=
  ⟨⟨rfl, rfl, rfl, rfl⟩, ⟨rfl, rfl, rfl, rfl⟩, ⟨rfl, rfl, rfl, rfl⟩, ⟨rfl, rfl, rfl, rfl⟩,
    fun _ => ⟨kind_max_of_unsigned, fun hk => ⟨kind_min_of_signed hk, kind_max_of_signed hk⟩⟩⟩

end Sys2Proof.Machine
end

section
/-! PROOFS. DecodeLaws: decode is a bijection from N-byte sequences onto its kind's range, and its two orders mirror
each other (40_decode.md section 3). Assembly comes first: it is a number's base-256 digits, read from either end. -/

namespace Sys2Proof.Machine

/-! ### Assembly as digits -/

/-- A sequence of bytes is determined by the number whose base-256 digits they are. -/
theorem bytes_eq_of_sum_eq {n : Nat} {f g : Nat → Byte}
    (h : ∑ i ∈ Finset.range n, (f i).toNat * 2 ^ (8 * i) = ∑ i ∈ Finset.range n, (g i).toNat * 2 ^ (8 * i))
    {i : Nat} (hi : i < n) : f i = g i := by
  have hdigits : finFunctionFinEquiv (fun j : Fin n => (f j).toFin) = finFunctionFinEquiv fun j => (g j).toFin := by
    apply Fin.ext
    simpa only [finFunctionFinEquiv_apply, Finset.sum_range, pow_mul, BitVec.val_toFin] using h
  have hbyte : (f i).toFin = (g i).toFin := congrFun (finFunctionFinEquiv.injective hdigits) ⟨i, hi⟩
  exact BitVec.eq_of_toFin_eq hbyte

/-- Assembling Big is assembling the reversed sequence Little (R41). -/
theorem assembleBytes_big_eq_sum (n : Nat) (b : LaneWord) :
    assembleBytes n .big b = ∑ i ∈ Finset.range n, (lane b (n - 1 - i)).toNat * 2 ^ (8 * i) := by
  rw [← Finset.sum_range_reflect]
  refine Finset.sum_congr rfl fun i hi => ?_
  rw [show n - 1 - (n - 1 - i) = i by have := Finset.mem_range.mp hi; omega]
  rfl

theorem assembleBytes_big_of_reversed {n : Nat} {b c : LaneWord}
    (h : ∀ i, i < n → lane c i = lane b (n - 1 - i)) : assembleBytes n .big c = assembleBytes n .little b := by
  rw [assembleBytes_big_eq_sum]
  refine Finset.sum_congr rfl fun i hi => ?_
  have hi' := Finset.mem_range.mp hi
  rw [h _ (by omega), show n - 1 - (n - 1 - i) = i by omega]
  rfl

/-- Assembly loses nothing of lanes 0 to n-1. -/
theorem lane_eq_of_assembleBytes_eq {n : Nat} {ord : Order} {b c : LaneWord}
    (h : assembleBytes n ord b = assembleBytes n ord c) {i : Nat} (hi : i < n) : lane b i = lane c i := by
  cases ord with
  | little => exact bytes_eq_of_sum_eq h hi
  | big =>
    rw [assembleBytes_big_eq_sum, assembleBytes_big_eq_sum] at h
    have hmirror := bytes_eq_of_sum_eq (f := fun j => lane b (n - 1 - j)) (g := fun j => lane c (n - 1 - j)) h
      (show n - 1 - i < n by omega)
    rwa [show n - 1 - (n - 1 - i) = i by omega] at hmirror

/-! ### The decoded value -/

/-- Every decoded value lies in its kind's range. -/
theorem decodedValue_mem_range (k : Kind) (ord : Order) (b : LaneWord) :
    k.min ≤ decodedValue k ord b ∧ decodedValue k ord b ≤ k.max := by
  cases hk : k.signed with
  | false =>
    rw [decodedValue_of_unsigned hk, kind_min_of_unsigned hk, kind_max_of_unsigned hk]
    exact ⟨Int.natCast_nonneg _, Int.le_sub_one_of_lt (mod_cast BitVec.isLt _)⟩
  | true =>
    rw [decodedValue_of_signed hk, kind_min_of_signed hk, kind_max_of_signed hk]
    exact ⟨BitVec.le_toInt _, BitVec.toInt_le⟩

theorem assembleBytes_eq_of_decodedValue_eq {k : Kind} {ord : Order} {b c : LaneWord}
    (h : decodedValue k ord b = decodedValue k ord c) :
    assembleBytes k.bytes ord b = assembleBytes k.bytes ord c := by
  rw [← toNat_ofNat_assembleBytes k ord b, ← toNat_ofNat_assembleBytes k ord c]
  cases hk : k.signed with
  | false => rwa [decodedValue_of_unsigned hk, decodedValue_of_unsigned hk, Nat.cast_inj] at h
  | true =>
    rw [decodedValue_of_signed hk, decodedValue_of_signed hk, BitVec.toInt_inj] at h
    rw [h]

theorem lane_eq_of_decodedValue_eq {k : Kind} {ord : Order} {b c : LaneWord}
    (h : decodedValue k ord b = decodedValue k ord c) {i : Nat} (hi : i < k.bytes) : lane b i = lane c i :=
  lane_eq_of_assembleBytes_eq (assembleBytes_eq_of_decodedValue_eq h) hi

/-- R of a signed decode in the naturals: U below the threshold and U - 2^n above it (R81, R83). -/
theorem decodedValue_of_signed_eq_ite {k : Kind} (hk : k.signed = true) (ord : Order) (b : LaneWord) :
    decodedValue k ord b = if assembleBytes k.bytes ord b > 2 ^ (k.bits - 1) - 1
      then (assembleBytes k.bytes ord b : Int) - 2 ^ k.bits else (assembleBytes k.bytes ord b : Int) := by
  rw [decodedValue, if_pos hk, signExtendValue_eq_ite]

/-- The result port carries every in-range value exactly (R35). -/
theorem toInt_ofInt_of_mem_range {iw : Nat} (hiw : 33 ≤ iw) {k : Kind} {v : Int} (hr : k.min ≤ v ∧ v ≤ k.max) :
    (BitVec.ofInt iw v).toInt = v :=
  toInt_ofInt_of_result hiw ((kind_range_within k).1.trans hr.1) (hr.2.trans (kind_range_within k).2)

/-! ### The laws -/

/-- Settles O8: the length check fails before the lanes are looked at. -/
theorem wrongLengthIsRejectedWithoutReadingLanes : Obligations.WrongLengthIsRejectedWithoutReadingLanes := by
  intro k ord s hl hn
  rw [exec_decodeOf]
  exact evalDecode_of_wrong_length hl hn

/-- Settles O10: decoding is injective because assembly is, and a value is delivered on the lanes its own encode lays
out. -/
theorem decodeIsABijectionOntoTheRange : Obligations.DecodeIsABijectionOntoTheRange := by
  intro k ord
  refine ⟨decodedValue_mem_range k ord, fun b c h i hi => lane_eq_of_decodedValue_eq h hi,
    fun v hmin hmax s hl hn => ?_, fun b hk => ⟨fun hle => ?_, fun hgt => ?_⟩⟩
  · refine ⟨packLanes (encodedBytes k ord v), BitVec.ofInt 64 v, ?_,
      toInt_ofInt_of_mem_range (by decide) ⟨hmin, hmax⟩⟩
    have hlanes := lanesHeld_of_allHeld (kind_bytes_le_four k) (heldPort_allHeld (packLanes (encodedBytes k ord v)))
    rw [exec_decodeOf]
    refine Eq.trans (evalDecode_of_length hl hn hlanes) ?_
    rw [heldPort_value, decodedValue_packLanes_encodedBytes ord ⟨hmin, hmax⟩]
    rfl
  · rw [decodedValue_of_signed_eq_ite hk, if_neg hle.not_gt]
  · rw [decodedValue_of_signed_eq_ite hk, if_pos hgt]

/-- The mirror image of a sequence decodes Big to what the sequence decodes Little. -/
theorem decodedValue_big_of_reversed {k : Kind} {b c : LaneWord}
    (h : ∀ i, i < k.bytes → lane c i = lane b (k.bytes - 1 - i)) :
    decodedValue k .big c = decodedValue k .little b := by
  simp only [decodedValue, assembleBytes_big_of_reversed h]

/-- Settles O11: both decodes pass or fail one length check, and reversed lanes assemble to the same number. -/
theorem decodeOrdersAreMirrorImages : Obligations.DecodeOrdersAreMirrorImages := by
  intro k s t hl hlen hs ht hrev
  have hseq : seqLen t = seqLen s := congrArg (·.value.toNat) hlen.symm
  rw [exec_decodeOf, exec_decodeOf]
  by_cases hn : seqLen s = k.bytes
  · refine ⟨_, evalDecode_of_length hl hn hs, ?_⟩
    rw [evalDecode_of_length (hlen ▸ hl) (hseq.trans hn) ht, decodedValue_big_of_reversed (hrev hn)]
  · exact ⟨_, evalDecode_of_wrong_length hl hn, evalDecode_of_wrong_length (hlen ▸ hl) (hseq.trans_ne hn)⟩

end Sys2Proof.Machine
end

section
/-! PROOFS. EncodeLaws: encode and decode undo each other, encode never wraps, and its two orders mirror each other
(41_encode.md section 3). -/

namespace Sys2Proof.Machine

/-! ### The round trip -/

/-- `len_out` of an encode, as a number and put on `len_in`, is N (R36). -/
theorem toNat_ofNat_kind_bytes (k : Kind) :
    (BitVec.ofNat 3 k.bytes).toNat = k.bytes ∧ ((BitVec.ofNat 3 k.bytes).setWidth 8).toNat = k.bytes := by
  cases k <;> decide

/-- Encoding what a decode delivers lays out the lanes it came from: both decode to one value. -/
theorem lane_packLanes_encodedBytes_decodedValue {k : Kind} {i : Nat} (hi : i < k.bytes) (ord : Order)
    (b : LaneWord) : lane (packLanes (encodedBytes k ord (decodedValue k ord b))) i = lane b i :=
  lane_eq_of_decodedValue_eq (decodedValue_packLanes_encodedBytes ord (decodedValue_mem_range k ord b)) hi

/-- Settles O19: decoding the encoded lanes gives back the pattern's value; the other way round, decoding is injective
on the lanes. -/
theorem encodeAndDecodeRoundTrip : Obligations.EncodeAndDecodeRoundTrip := by
  constructor
  · intro k ord s hv hmin hmax
    obtain ⟨hlenOut, hlenIn⟩ := toNat_ofNat_kind_bytes k
    rw [exec_encodeOf]
    refine ⟨_, evalEncode_drives hv ⟨hmin, hmax⟩, rfl, hlenOut, fun t hl hb => ?_⟩
    have hseq : seqLen t = k.bytes := (congrArg (·.value.toNat) hl).trans hlenIn
    rw [exec_decodeOf]
    exact ⟨_, evalDecode_of_encoded ⟨hmin, hmax⟩ (hl ▸ heldPort_allHeld _) hseq hb, rfl, rfl⟩
  · intro k ord s hl hn hlanes
    rw [exec_decodeOf]
    refine ⟨_, evalDecode_of_length hl hn hlanes, rfl, fun t ht => ?_⟩
    have hr := decodedValue_mem_range k ord s.inputs.bIn.value
    have hoperand : intOperand t = decodedValue k ord s.inputs.bIn.value :=
      (congrArg (·.value.toInt) ht).trans (toInt_ofInt_of_mem_range (by decide) hr)
    rw [exec_encodeOf]
    refine ⟨_, evalEncode_drives (ht ▸ heldPort_allHeld _) (hoperand ▸ hr), rfl, (toNat_ofNat_kind_bytes k).1,
      fun i hi => ?_⟩
    rw [hoperand]
    exact lane_packLanes_encodedBytes_decodedValue hi ord _

/-! ### Exactness and mirror images -/

/-- An encode of a V below or above its range delivers nothing (R110, R145). -/
theorem evalEncode_of_lt_min_or_max_lt {k : Kind} {ord : Order} {s : State} (hv : s.inputs.vIn.allHeld = true)
    (hout : intOperand s < k.min ∨ k.max < intOperand s) :
    evalEncode k ord s =
      .next { s with outputs := some { rOut := 0, bOut := 0, lenOut := 0, err := .outOfRange } } :=
  evalEncode_of_outOfRange hv fun ⟨hmin, hmax⟩ => hout.elim hmin.not_gt hmax.not_gt

/-- Settles O20: a negative V lies below an unsigned range, a V of 2^(n-1) or more above a signed one, and 32768 above
that of int16. -/
theorem encodeNeverWraps : Obligations.EncodeNeverWraps := by
  refine ⟨fun k ord s hv => ?_, fun o o' s t d _ hd ht => ?_⟩
  · rw [exec_encodeOf]
    refine ⟨evalEncode_of_lt_min_or_max_lt hv, fun hk hneg => evalEncode_of_lt_min_or_max_lt hv (.inl ?_),
      fun hk hbig => evalEncode_of_lt_min_or_max_lt hv (.inr ?_)⟩
    · rwa [kind_min_of_unsigned hk]
    · rw [kind_max_of_signed hk]
      exact Int.sub_one_lt_of_le hbig
  · have hoperand : intOperand t = d.rOut.toInt := congrArg (·.value.toInt) ht
    have habove : Kind.int16.max < intOperand t := hoperand ▸ Int.lt_of_add_one_le hd
    exact evalEncode_of_lt_min_or_max_lt (k := .int16) (ht ▸ heldPort_allHeld _) (.inr habove)

/-- The Big sequence is the Little one reversed: element i has rank N-1-i (R41, R112). -/
theorem lane_packLanes_encodedBytes_big {k : Kind} {i : Nat} (hi : i < k.bytes) (v : Int) :
    lane (packLanes (encodedBytes k .big v)) i = lane (packLanes (encodedBytes k .little v)) (k.bytes - 1 - i) := by
  rw [lane_packLanes_encodedBytes hi, lane_packLanes_encodedBytes (by omega)]
  rfl

/-- Settles O21: both encodes pass or fail one range check, and the rank of one order reverses that of the other. -/
theorem encodeOrdersAreMirrorImages : Obligations.EncodeOrdersAreMirrorImages := by
  intro k s hv
  rw [exec_encodeOf, exec_encodeOf]
  by_cases hr : k.min ≤ intOperand s ∧ intOperand s ≤ k.max
  · exact ⟨_, _, evalEncode_drives hv hr, evalEncode_drives hv hr,
      fun _ => ⟨rfl, rfl, rfl, fun i hi => lane_packLanes_encodedBytes_big hi _⟩, fun hout => absurd hr hout⟩
  · exact ⟨_, _, evalEncode_of_outOfRange hv hr, evalEncode_of_outOfRange hv hr, fun hin => absurd hin hr,
      fun _ => ⟨rfl, rfl⟩⟩

end Sys2Proof.Machine
end

section
/-! PROOFS. Settling: the outputs follow the inputs at reset, as the host presents inputs to one block or to one of
several, and after every step (10_state.md section 5, 70_reset_and_hazards.md, 60_exceptions.md section 6). -/

namespace Sys2Proof.Machine

/-! ### Settling and presenting (R39) -/

theorem settle_of_evaluable {s : State} (h : s.inputs.evaluable = true) : s.settle = s.drive s.evalInputs := by
  rw [State.settle, ← step_eq_evaluate, step_of_evaluable h]

/-- Settling leaves no output a value where a bit the evaluation reads is undriven (R174). -/
theorem settle_of_not_evaluable {s : State} (h : s.inputs.evaluable = false) :
    s.settle = { s with outputs := none } := by
  rcases settle_cases s with ⟨o, heval, -⟩ | ⟨f, -, hsettle⟩
  · exact absurd (evaluable_of_step_next heval) (h ▸ Bool.false_ne_true)
  · exact hsettle

/-- Settling settles, whatever the inputs. -/
theorem settled_settle (s : State) : s.settle.settled := by
  cases h : s.inputs.evaluable with
  | true => exact settle_of_evaluable h ▸ settled_drive_evalInputs h
  | false =>
    rw [settle_of_not_evaluable h, State.settled, h]
    rfl

theorem settled_present (s : State) (ins : Inputs) : (s.present ins).settled := settled_settle _

/-- Presenting inputs whose read bits are all driven leaves them with EVAL on the outputs. -/
theorem present_of_evaluable (s : State) {ins : Inputs} (h : ins.evaluable = true) :
    s.present ins = { inputs := ins
                      outputs := some (datapathEval ins.op.value ins.lenIn.value ins.bIn.value ins.vIn.value) } :=
  settle_of_evaluable (s := { s with inputs := ins }) h

/-- A step of freshly presented inputs answers the state it is taken in. -/
theorem step_present_of_evaluable (s : State) {ins : Inputs} (h : ins.evaluable = true) :
    step (s.present ins) = .next (s.present ins) := by
  rw [present_of_evaluable s h]
  exact step_of_evaluable h

/-- A settled state is where its own step leads. -/
theorem drive_evalInputs_of_settled {s : State} (h : s.inputs.evaluable = true) (hs : s.settled) :
    s.drive s.evalInputs = s := by
  rw [State.settled, if_pos h] at hs
  rw [State.drive, ← hs]

theorem fullyHeld_reset : State.reset.inputs.fullyHeld = true := rfl

/-- At reset the ports hold a decode of length 0, whose EVAL is InvalidLength (R171, log entry 1). -/
theorem settled_reset : State.reset.settled := by
  rw [State.settled, if_pos (evaluable_of_fullyHeld fullyHeld_reset)]
  rfl

/-- Settles O44: presenting and driving a word end by settling, and a step drives what a settled state already holds. -/
theorem outputsFollowInputsAtAllTimes : Obligations.OutputsFollowInputsAtAllTimes := by
  refine ⟨settled_reset, fun s ins => ⟨present_inputs s ins, settled_present s ins, fun hheld => ?_⟩,
    fun s _ _ => settled_present s _, fun s t h => ?_⟩
  · rw [present_of_evaluable s (evaluable_of_fullyHeld hheld)]
  · obtain ⟨heval, rfl⟩ := step_eq_next_iff.mp h
    exact ⟨settled_drive_evalInputs heval, drive_evalInputs_of_settled heval⟩

/-! ### Legal outputs (R35 to R37, R145) -/

theorem legal_raised {e : Status} (he : e ≠ .ok) : (Outputs.raised e : Outputs 64).legal := by
  rw [Outputs.legal, raised_err, if_neg he]
  exact ⟨rfl, rfl, rfl⟩

theorem legal_decoded {k : Kind} {r : Int} (hr : k.min ≤ r ∧ r ≤ k.max) :
    (Outputs.decoded r : Outputs 64).legal := by
  obtain ⟨hmin, hmax⟩ := kind_range_within k
  rw [Outputs.legal, if_pos (decoded_err r), decoded_rOut, toInt_ofInt_of_mem_range (by decide) hr]
  exact .inl ⟨rfl, rfl, hmin.trans hr.1, hr.2.trans hmax⟩

theorem lenOut_encoded_cases (k : Kind) (ord : Order) (v : Int) :
    (k.bytes = 2 ∧ (Outputs.encoded (encodedBytes k ord v) : Outputs 64).lenOut = 2) ∨
      (Outputs.encoded (encodedBytes k ord v) : Outputs 64).lenOut = 4 := by
  rw [encoded_lenOut, encodedBytes_length]
  rcases kind_bytes_cases k with hk | hk
  · exact .inl ⟨hk, by rw [hk]; rfl⟩
  · exact .inr (by rw [hk]; rfl)

theorem legal_encoded (k : Kind) (ord : Order) (v : Int) :
    (Outputs.encoded (encodedBytes k ord v) : Outputs 64).legal := by
  rw [Outputs.legal, if_pos (encoded_err _)]
  refine .inr ⟨rfl, ?_⟩
  rcases lenOut_encoded_cases k ord v with ⟨hk, hlen⟩ | hlen
  · exact .inr ⟨hlen, lane_packLanes_encodedBytes_above hk.le (by decide) ord v,
      lane_packLanes_encodedBytes_above (by omega) (by decide) ord v⟩
  · exact .inl hlen

/-- Every operation drives legal outputs, whose `len_out` is 0, 2 or 4. -/
theorem exec_next_legal {i : Instr} {s t : State} (h : exec i s = .next t) :
    ∃ o : Outputs 64, t = s.drive o ∧ o.legal ∧ (o.lenOut = 0 ∨ o.lenOut = 2 ∨ o.lenOut = 4) := by
  rcases instr_cases i with ⟨-, hi⟩ | ⟨-, hi⟩ <;> rw [hi] at h
  · rw [exec_decodeOf] at h
    obtain ⟨-, ⟨-, -, ht⟩ | ⟨-, ht⟩⟩ := evalDecode_next h
    · exact ⟨_, ht, legal_decoded (decodedValue_mem_range _ _ _), .inl rfl⟩
    · exact ⟨_, ht, legal_raised nofun, .inl rfl⟩
  · rw [exec_encodeOf] at h
    obtain ⟨-, ⟨-, ht⟩ | ⟨-, ht⟩⟩ := evalEncode_next h
    · exact ⟨_, ht, legal_encoded _ _ _, .inr ((lenOut_encoded_cases _ _ _).imp_left And.right)⟩
    · exact ⟨_, ht, legal_raised nofun, .inl rfl⟩

/-- Settles O29: a step runs one operation, and each of its four outcomes is legal. -/
theorem stepsKeepOutputsLegal : Obligations.StepsKeepOutputsLegal := by
  intro s t h
  obtain ⟨i, -, hexec⟩ := evaluate_next h
  exact exec_next_legal hexec

/-- Settles O30: the reset outputs are those of InvalidLength; presented inputs settle at EVAL and stay there. -/
theorem resetOutputsAreEvalOfInputs : Obligations.ResetOutputsAreEvalOfInputs := by
  refine ⟨settled_reset, ⟨_, rfl, legal_raised nofun⟩, fun ins hheld => ?_⟩
  have heval := evaluable_of_fullyHeld hheld
  rw [step_present_of_evaluable _ heval, present_of_evaluable _ heval]

/-! ### Which operation a step runs, and where it faults (R29, R174) -/

theorem step_of_held_op {s : State} (h : s.inputs.op.allHeld = true) : step s = exec (decode s.inputs.op.value) s :=
  evaluate_of_presented (presentedOp_eq_some_iff.mpr ⟨h, rfl⟩)

theorem step_of_undriven_op {s : State} (h : s.inputs.op.allHeld = false) : step s = .fault (.undriven .op) := by
  rw [step_eq_evaluate, evaluate, presentedOp, h]
  rfl

theorem evalDecode_of_undriven_length {k : Kind} {ord : Order} {s : State} (h : s.inputs.lenIn.allHeld = false) :
    evalDecode k ord s = .fault (.undriven .lenIn) := by
  rw [evalDecode, h]
  rfl

theorem evalDecode_of_undriven_lanes {k : Kind} {ord : Order} {s : State} (hl : s.inputs.lenIn.allHeld = true)
    (hn : seqLen s = k.bytes) (hb : lanesHeld k.bytes s.inputs.bIn = false) :
    evalDecode k ord s = .fault (.undriven .bIn) := by
  rw [evalDecode, if_pos hl, if_pos (show lengthOk k (seqLen s) = true from decide_eq_true hn), hb]
  rfl

theorem evalEncode_of_undriven_value {k : Kind} {ord : Order} {s : State} (h : s.inputs.vIn.allHeld = false) :
    evalEncode k ord s = .fault (.undriven .vIn) := by
  rw [evalEncode, h]
  rfl

theorem exec_of_decode {i : Instr} (h : i.direction = .decode) (s : State) :
    exec i s = evalDecode i.kind i.order s := by
  cases i with
  | decodeU16 | decodeI16 | decodeU32 | decodeI32 => rfl
  | encodeU16 | encodeI16 | encodeU32 | encodeI32 => cases h

theorem exec_of_encode {i : Instr} (h : i.direction = .encode) (s : State) :
    exec i s = evalEncode i.kind i.order s := by
  cases i with
  | decodeU16 | decodeI16 | decodeU32 | decodeI32 => cases h
  | encodeU16 | encodeI16 | encodeU32 | encodeI32 => rfl

/-- Settles O31: driven read bits make the inputs evaluable; otherwise the first undriven port the operation reads is
the one the fault names. -/
theorem undrivenReadBitsFault : Obligations.UndrivenReadBitsFault := by
  refine fun s => ⟨step_of_undriven_op, fun hop i hi => ?_⟩
  subst hi
  rw [step_of_held_op hop]
  refine ⟨fun hread => ?_, fun hdir hlen => ?_, fun hdir hlen hn hb => ?_, fun hdir hv => ?_⟩
  · exact ⟨_, (step_of_held_op hop).symm.trans (step_of_evaluable (Bool.and_eq_true_iff.mpr ⟨hop, hread⟩))⟩
  · rw [exec_of_decode hdir, evalDecode_of_undriven_length hlen]
  · rw [exec_of_decode hdir, evalDecode_of_undriven_lanes hlen hn hb]
  · rw [exec_of_encode hdir, evalEncode_of_undriven_value hv]

/-- Settles O33: a step is an evaluation, and an evaluation runs the operation presented on `op`. -/
theorem stepRunsTheDecodedOperation : Obligations.StepRunsTheDecodedOperation :=
  fun _ _ hop hi => hi ▸ step_of_held_op hop

/-! ### Several blocks (R51, R154) -/

theorem presentBlock_getElem?_self {k : Nat} {blocks : List State} (hk : k < blocks.length) (ins : Inputs) :
    (presentBlock k ins blocks)[k]? = some (blocks[k].present ins) := by
  rw [presentBlock, List.getElem?_modify_eq, List.getElem?_eq_getElem hk]
  rfl

/-- Settles O36: a presentation modifies one place of the list, and what it leaves there is a function of the inputs
presented. -/
theorem blocksAreIndependent : Obligations.BlocksAreIndependent := by
  refine fun blocks j k a b hjk => ⟨fun hk hheld => ?_, List.getElem?_modify_ne _ _ hjk.symm,
    List.modify_modify_ne _ _ _ hjk.symm⟩
  have heval := evaluable_of_fullyHeld hheld
  exact ⟨_, presentBlock_getElem?_self hk a, present_of_evaluable _ heval, step_present_of_evaluable _ heval⟩

end Sys2Proof.Machine
end

section
/-! PROOFS. PortWidths: EVAL gives the same results at every admitted IW and LW (00_scope.md R9, D27). -/

namespace Sys2Proof.Machine

/-- Two sets of output ports carry one result: `r_out` is compared as the integer it carries, since the ports may
differ in width. -/
def Outputs.sameResult {iw iw' : Nat} (o : Outputs iw) (p : Outputs iw') : Prop :=
  o.rOut.toInt = p.rOut.toInt ∧ o.bOut = p.bOut ∧ o.lenOut = p.lenOut ∧ o.err = p.err

theorem sameResult_raised {iw iw' : Nat} (e : Status) :
    (Outputs.raised e : Outputs iw).sameResult (Outputs.raised e : Outputs iw') :=
  ⟨BitVec.toInt_zero.trans BitVec.toInt_zero.symm, rfl, rfl, rfl⟩

theorem sameResult_encoded {iw iw' : Nat} (bytes : List Byte) :
    (Outputs.encoded bytes : Outputs iw).sameResult (Outputs.encoded bytes : Outputs iw') :=
  ⟨BitVec.toInt_zero.trans BitVec.toInt_zero.symm, rfl, rfl, rfl⟩

theorem sameResult_decoded {iw iw' : Nat} (hiw : 33 ≤ iw) (hiw' : 33 ≤ iw') {k : Kind} {r : Int}
    (hr : k.min ≤ r ∧ r ≤ k.max) :
    (Outputs.decoded r : Outputs iw).sameResult (Outputs.decoded r : Outputs iw') :=
  ⟨(toInt_ofInt_of_mem_range hiw hr).trans (toInt_ofInt_of_mem_range hiw' hr).symm, rfl, rfl, rfl⟩

theorem sameResult_datapathDecode {iw iw' lw lw' : Nat} (hiw : 33 ≤ iw) (hiw' : 33 ≤ iw') (k : Kind) (ord : Order)
    {len : BitVec lw} {len' : BitVec lw'} (hlen : len.toNat = len'.toNat) (b : LaneWord) :
    (datapathDecode (decide (k.bytes = 4)) k.signed (decide (ord = .big)) len b : Outputs iw).sameResult
      (datapathDecode (decide (k.bytes = 4)) k.signed (decide (ord = .big)) len' b : Outputs iw') := by
  by_cases hn : len.toNat = k.bytes
  · rw [datapathDecode_of_length k ord b hn, datapathDecode_of_length k ord b (hlen ▸ hn)]
    exact sameResult_decoded hiw hiw' (decodedValue_mem_range k ord b)
  · rw [datapathDecode_of_wrong_length k _ _ b hn, datapathDecode_of_wrong_length k _ _ b (hlen ▸ hn)]
    exact sameResult_raised _

theorem sameResult_datapathEncode {iw iw' : Nat} (hiw : 33 ≤ iw) (hiw' : 33 ≤ iw') (k : Kind) (ord : Order)
    {v : BitVec iw} {v' : BitVec iw'} (hv : v.toInt = v'.toInt) :
    (datapathEncode (decide (k.bytes = 4)) k.signed (decide (ord = .big)) v).sameResult
      (datapathEncode (decide (k.bytes = 4)) k.signed (decide (ord = .big)) v') := by
  by_cases hr : k.min ≤ v.toInt ∧ v.toInt ≤ k.max
  · rw [datapathEncode_of_inRange (by omega) k ord v hr, datapathEncode_of_inRange (by omega) k ord v' (hv ▸ hr), hv]
    exact sameResult_encoded _
  · rw [datapathEncode_of_outOfRange k _ v hr, datapathEncode_of_outOfRange k _ v' (hv ▸ hr)]
    exact sameResult_raised _

/-- Settles O32: a decode compares the length and delivers at most 33 bits, an encode reads the integer on `v_in`. -/
theorem portWidthsDoNotChangeResults : Obligations.PortWidthsDoNotChangeResults := by
  intro iw lw hiw _ op len len8 b v v64 hlen hv
  cases hdir : (decode op).direction with
  | decode =>
    rw [datapathEval_of_decode hdir, datapathEval_of_decode hdir]
    exact sameResult_datapathDecode hiw (by decide) _ _ hlen b
  | encode =>
    rw [datapathEval_of_encode hdir, datapathEval_of_encode hdir]
    exact sameResult_datapathEncode hiw (by decide) _ _ hv

end Sys2Proof.Machine
end

section
/-! PROOFS. OperationWords: the byte form of an operation word, and a word the host drives on `op` (30_encoding.md
sections 2 and 4). -/

namespace Sys2Proof.Machine

/-- A word as a byte is below 16 and narrows back to the word (log entry 6). -/
theorem decodeBytes_setWidth (w : OpWord) : decodeBytes [w.setWidth 8] = .ok (decode w) := by
  have hlt : (w.setWidth 8).toNat < 16 := by
    rw [BitVec.toNat_setWidth_of_le (by decide)]
    exact w.isLt
  rw [decodeBytes, if_pos hlt, BitVec.setWidth_setWidth_of_le _ (by decide), BitVec.setWidth_eq]

/-- The table word of an operation decodes to it. -/
theorem decodeTableWord_encode (i : Instr) : decodeTableWord 8 (encode i).toNat = some i := by
  have hlt : (encode i).toNat < 2 ^ 8 := (encode i).isLt.trans (by decide)
  have hbytes : wordBytes ((8 + 7) / 8) (encode i).toNat = [(encode i).setWidth 8] := by
    simp [wordBytes, List.range_succ]
  rw [decodeTableWord, if_pos hlt, hbytes, decodeBytes_setWidth, decode_encode]
  rfl

/-- Settles O38: sixteen words and sixteen operations correspond; a byte of 16 or more has a bit above `op[3]`. -/
theorem operationWordsRoundTrip : Obligations.OperationWordsRoundTrip := by
  refine ⟨fun i => ⟨by cases i <;> rfl, decode_encode i, ?_⟩, encode_decode, fun b hb => ?_, fun _ _ _ => rfl⟩
  · rw [encodeBytes, decodeBytes_setWidth, decode_encode]
  · rw [decodeBytes, if_neg hb.not_gt]

/-- The host's driving an operation's word puts exactly that word on `op`, every bit held (R29). -/
theorem withFetchWord_inputs (s : State) (n : Nat) (i : Instr) :
    (s.withFetchWord n (encode i).toNat).inputs = { s.inputs with op := heldPort (encode i) } := by
  rw [State.withFetchWord, driveOpWord, present_inputs, BitVec.ofNat_toNat, BitVec.setWidth_eq]

/-- Settles O34: the driven word is the operation's own, so the step, which runs what is on `op`, runs it. -/
theorem drivenWordRunsNext : Obligations.DrivenWordRunsNext := by
  intro i s
  have hop : (s.withFetchWord 8 (encode i).toNat).inputs.op = heldPort (encode i) := by rw [withFetchWord_inputs]
  refine ⟨decodeTableWord_encode i, withFetchWord_inputs s 8 i, settled_present s _, ?_⟩
  rw [step_of_held_op (hop ▸ heldPort_allHeld _), hop, heldPort_value, decode_encode]

end Sys2Proof.Machine
end

section
/-! PROOFS. TextualForm: what a call reads as, in its canonical spelling and under its aliases (30_encoding.md
section 5). -/

namespace Sys2Proof.Machine

/-! ### The readers, one equation each -/

theorem readCall_decode {m : List Char} {k : Kind} (h : readMnemonic m = some (.decode, k)) (rest : List Tok) :
    readCall (.word m :: .sym '(' :: rest) = readDecodeCall k rest := by
  rw [readCall, h]

theorem readCall_encode {m : List Char} {k : Kind} (h : readMnemonic m = some (.encode, k)) (rest : List Tok) :
    readCall (.word m :: .sym '(' :: rest) = readEncodeCall k rest := by
  rw [readCall, h]

theorem readDecodeCall_byteListToks (k : Kind) {bytes : List Nat} (h : elementsAreBytes bytes = true)
    (rest : List Tok) :
    readDecodeCall k (byteListToks bytes ++ rest) = (readOrderEnd rest).map (Call.decode k bytes) := by
  rw [readDecodeCall, dropKeyword_byteListToks, readByteList_byteListToks]
  exact if_pos h

theorem readEncodeCall_valueTok (k : Kind) (v : Int) (rest : List Tok) :
    readEncodeCall k (valueTok v :: rest) = (readOrderEnd rest).map (Call.encode k v) := by
  rw [readEncodeCall, dropKeyword_valueTok, readValue_valueTok]

theorem readOrderEnd_order (o : Order) :
    readOrderEnd [.sym ',', .word (orderText o), .sym ')'] = .ok o := readOrder_orderText o

theorem readOrderEnd_keyword {key : List Char} (h : key = "order".toList ∨ key = "endianness".toList) (o : Order) :
    readOrderEnd [.sym ',', .word key, .sym '=', .word (orderText o), .sym ')'] = .ok o :=
  (if_pos h).trans (readOrder_orderText o)

/-- A keyword before its operand is dropped once. -/
theorem dropKeyword_keyword (key : List Char) (rest : List Tok) :
    dropKeyword key (.word key :: .sym '=' :: rest) = rest := if_pos rfl

theorem readDecodeCall_keyword (k : Kind) (bytes : List Nat) (rest : List Tok) :
    readDecodeCall k (.word "bytes".toList :: .sym '=' :: (byteListToks bytes ++ rest)) =
      readDecodeCall k (byteListToks bytes ++ rest) := by
  rw [readDecodeCall, readDecodeCall, dropKeyword_keyword, dropKeyword_byteListToks]

theorem readEncodeCall_keyword (k : Kind) (v : Int) (rest : List Tok) :
    readEncodeCall k (.word "value".toList :: .sym '=' :: valueTok v :: rest) =
      readEncodeCall k (valueTok v :: rest) := by
  rw [readEncodeCall, readEncodeCall, dropKeyword_keyword, dropKeyword_valueTok]

/-- The table of names holds the eight mnemonics and `encode_uint16` (R72). -/
theorem mnemonicTable_names :
    ∀ p ∈ mnemonicTable, p.1 = "encode_uint16".toList ∨ p.1 = mnemonicText p.2.1 p.2.2 := by decide

theorem readMnemonic_of_unknown {m : List Char} (halias : m ≠ "encode_uint16".toList)
    (hname : ∀ d k, m ≠ mnemonicText d k) : readMnemonic m = none := by
  refine List.lookup_eq_none_iff.mpr fun p hp => bne_iff_ne.mpr fun hm => ?_
  rcases mnemonicTable_names p hp with h | h
  · exact halias (hm.trans h)
  · exact hname _ _ (hm.trans h)

theorem readCall_of_unknown {m : List Char} (h : readMnemonic m = none) (rest : List Tok) :
    readCall (.word m :: .sym '(' :: rest) = .error .unknownMnemonic := by
  rw [readCall, h]

/-! ### Whole calls -/

/-- Settles O40: each reader undoes the writer of its part of the canonical spelling. -/
theorem callSpellingsReadBack : Obligations.CallSpellingsReadBack := by
  intro c hwf
  cases c with
  | decode k bytes o =>
    have hbytes : elementsAreBytes bytes = true := (Bool.and_eq_true_iff.mp hwf).2
    refine (readCall_decode (readMnemonic_mnemonicText .decode k) _).trans ?_
    rw [callOperandToks, readDecodeCall_byteListToks k hbytes, callOrder, readOrderEnd_order]
    rfl
  | encode k v o =>
    refine (readCall_encode (readMnemonic_mnemonicText .encode k) _).trans ?_
    rw [callOperandToks, List.singleton_append, readEncodeCall_valueTok, callOrder, readOrderEnd_order]
    rfl

/-- Settles O41: an order keyword is read at the end of a call and an operand keyword dropped before the operand; a name
is looked up in the table, where `encode_uint16` has the meaning of `encode_u16`. -/
theorem aliasesExpandToCanonicalCalls : Obligations.AliasesExpandToCanonicalCalls := by
  have hdecode := fun k => readCall_decode (readMnemonic_mnemonicText .decode k)
  have hencode := fun k => readCall_encode (readMnemonic_mnemonicText .encode k)
  refine ⟨fun k bytes o hbytes => ⟨?_, fun key hkey => ?_⟩, fun k v o => ⟨?_, fun key hkey => ?_⟩,
    fun k bytes rest => ?_, fun k v rest => ?_, fun rest => ?_, fun m rest halias hname => ?_⟩
  · rw [hdecode, readDecodeCall_byteListToks k hbytes]
    rfl
  · rw [hdecode, readDecodeCall_byteListToks k hbytes, readOrderEnd_keyword hkey]
    rfl
  · rw [hencode, readEncodeCall_valueTok]
    rfl
  · rw [hencode, readEncodeCall_valueTok, readOrderEnd_keyword hkey]
    rfl
  · rw [hdecode, hdecode, readDecodeCall_keyword]
  · rw [hencode, hencode, readEncodeCall_keyword]
  · rw [hencode, readCall_encode (k := .uint16) rfl]
  · exact readCall_of_unknown (readMnemonic_of_unknown halias hname) rest

end Sys2Proof.Machine
end

section
/-! PROOFS. Assembly: a call on the ports, and its result after one step (30_encoding.md R73). -/

namespace Sys2Proof.Machine

/-! ### The ports of a call -/

/-- What a presentable call puts on the ports. -/
def callInputs (c : Call) : Inputs where
  op := heldPort (encode (callInstr c))
  lenIn := heldPort (match c with
    | .decode _ bytes _ => BitVec.ofNat 8 bytes.length
    | .encode _ _ _ => 0)
  bIn := heldPort (match c with
    | .decode _ bytes _ => packLanes ((bytes.take 4).map (BitVec.ofNat 8))
    | .encode _ _ _ => 0)
  vIn := heldPort (match c with
    | .decode _ _ _ => 0
    | .encode _ v _ => BitVec.ofInt 64 v)

theorem assembleCall_of_wf {c : Call} (h : c.wf = true) : assembleCall c = .ok (callInputs c) := by
  cases c with
  | decode k bytes o =>
    obtain ⟨hlen, hbytes⟩ := Bool.and_eq_true_iff.mp h
    rw [assembleCall, hlen, hbytes]
    rfl
  | encode k v o =>
    rw [assembleCall, show valuePresentable v = true from h]
    rfl

theorem callInputs_fullyHeld (c : Call) : (callInputs c).fullyHeld = true := by
  simp only [Inputs.fullyHeld, callInputs, heldPort_allHeld, Bool.and_self]

theorem decode_callInputs_op (c : Call) : decode (callInputs c).op.value = callInstr c := decode_encode _

/-- Lane `i` of an assembled sequence carries element `i`, or 0 where there is none. -/
theorem lane_callInputs (k : Kind) (bytes : List Nat) (o : Order) {i : Nat} (hi : i < 4) :
    lane (callInputs (.decode k bytes o)).bIn.value i = BitVec.ofNat 8 (bytes.getD i 0) := by
  refine (lane_packLanes _ i hi).trans ?_
  rw [List.getD_eq_getElem?_getD, List.getD_eq_getElem?_getD, List.getElem?_map, List.getElem?_take, if_pos hi]
  cases bytes[i]? <;> rfl

theorem elementsAreBytes_iff {bytes : List Nat} : elementsAreBytes bytes = true ↔ ∀ x ∈ bytes, x < 256 := by
  simp only [elementsAreBytes, List.all_eq_true, decide_eq_true_iff]

theorem getD_lt_of_elementsAreBytes {bytes : List Nat} (h : elementsAreBytes bytes = true) (i : Nat) :
    bytes.getD i 0 < 256 := by
  rw [List.getD_eq_getElem?_getD]
  cases hi : bytes[i]? with
  | none => decide
  | some x => exact elementsAreBytes_iff.mp h x (List.mem_of_getElem? hi)

/-- Lane `i` of an assembled sequence of bytes, as a number. -/
theorem lane_callInputs_toNat (k : Kind) {bytes : List Nat} (h : elementsAreBytes bytes = true) (o : Order) {i : Nat}
    (hi : i < 4) : (lane (callInputs (.decode k bytes o)).bIn.value i).toNat = bytes.getD i 0 := by
  rw [lane_callInputs k bytes o hi, BitVec.toNat_ofNat, Nat.mod_eq_of_lt (getD_lt_of_elementsAreBytes h i)]

theorem callInputs_lenIn_toNat (k : Kind) {bytes : List Nat} (h : bytes.length < 256) (o : Order) :
    (callInputs (.decode k bytes o)).lenIn.value.toNat = bytes.length :=
  (BitVec.toNat_ofNat ..).trans (Nat.mod_eq_of_lt h)

theorem callInputs_vIn_toInt (k : Kind) {v : Int} (h : valuePresentable v = true) (o : Order) :
    (callInputs (.encode k v o)).vIn.value.toInt = v := by
  obtain ⟨hlo, hhi⟩ := of_decide_eq_true h
  exact BitVec.toInt_ofInt_eq_self (by decide) hlo (Int.lt_add_one_of_le hhi)

/-- Settles O42: a presentable call is assembled port by port, and each of the two checks refuses what its port cannot
carry. -/
theorem assemblyPlacesOperandsOnPorts : Obligations.AssemblyPlacesOperandsOnPorts := by
  refine ⟨fun k bytes o hwf => ?_, fun k v o hwf => ?_, fun k bytes o hlong => ?_, fun k v o hout => ?_⟩
  · obtain ⟨hlen, hbytes⟩ := Bool.and_eq_true_iff.mp hwf
    refine ⟨_, assembleCall_of_wf hwf, callInputs_fullyHeld _, decode_callInputs_op _,
      callInputs_lenIn_toNat k (of_decide_eq_true hlen) o,
      fun i hi => lane_callInputs_toNat k hbytes o (lt_min_iff.mp hi).2, fun i hi hi4 => ?_⟩
    rw [lane_callInputs k bytes o hi4, List.getD_eq_default _ _ hi]
    rfl
  · exact ⟨_, assembleCall_of_wf hwf, callInputs_fullyHeld _, decode_callInputs_op _, rfl,
      callInputs_vIn_toInt k hwf o⟩
  · have hlen : lengthPresentable bytes = false := decide_eq_false hlong.not_gt
    rw [assembleCall, hlen]
    rfl
  · have hv : valuePresentable v = false := decide_eq_false (by omega)
    rw [assembleCall, hv]
    rfl

/-! ### From a call to its result -/

/-- A call's step runs the operation it names, on its own inputs. -/
theorem step_present_callInputs (s : State) (c : Call) :
    step (s.present (callInputs c)) = exec (callInstr c) (s.present (callInputs c)) := by
  have hop : (s.present (callInputs c)).inputs.op = heldPort (encode (callInstr c)) := by
    rw [present_inputs]
    rfl
  rw [step_of_held_op (hop ▸ heldPort_allHeld _), hop, heldPort_value, decode_encode]

theorem drive_present (s : State) (ins : Inputs) (o : Outputs 64) :
    (s.present ins).drive o = { inputs := ins, outputs := some o } := by
  rw [State.drive, present_inputs]

/-- R in the naturals, for every kind: U, less 2^n for a signed kind at or above 2^(n-1) (R81, R83). -/
theorem decodedValue_eq_ite (k : Kind) (ord : Order) (b : LaneWord) :
    decodedValue k ord b = if k.signed = true ∧ 2 ^ (k.bits - 1) ≤ assembleBytes k.bytes ord b
      then (assembleBytes k.bytes ord b : Int) - 2 ^ k.bits else (assembleBytes k.bytes ord b : Int) := by
  cases hk : k.signed with
  | false => rw [decodedValue, hk, if_neg Bool.false_ne_true, if_neg (fun h => nomatch h.1)]
  | true =>
    have hpos : 0 < 2 ^ (k.bits - 1) := Nat.two_pow_pos _
    have hthreshold : assembleBytes k.bytes ord b > 2 ^ (k.bits - 1) - 1 ↔
        2 ^ (k.bits - 1) ≤ assembleBytes k.bytes ord b := by omega
    rw [decodedValue_of_signed_eq_ite hk]
    exact if_congr (hthreshold.trans (and_iff_right rfl).symm) rfl rfl

/-- Assembling the lanes of a call sums its elements by rank (R80). -/
theorem assembleBytes_callInputs (k : Kind) {bytes : List Nat} (h : elementsAreBytes bytes = true) (o : Order) :
    assembleBytes k.bytes o (callInputs (.decode k bytes o)).bIn.value =
      ∑ i ∈ Finset.range k.bytes, bytes.getD i 0 * 2 ^ (8 * rank k.bytes o i) :=
  Finset.sum_congr rfl fun i hi => by
    rw [lane_callInputs_toNat k h o ((Finset.mem_range.mp hi).trans_le (kind_bytes_le_four k))]

theorem wf_decode_of_length {k : Kind} {bytes : List Nat} (hlen : bytes.length = k.bytes)
    (h : elementsAreBytes bytes = true) (o : Order) : (Call.decode k bytes o).wf = true := by
  have hle := kind_bytes_le_four k
  exact Bool.and_eq_true_iff.mpr ⟨decide_eq_true (by omega), h⟩

theorem valuePresentable_of_mem_range {k : Kind} {v : Int} (hmin : k.min ≤ v) (hmax : v ≤ k.max) :
    valuePresentable v = true := by
  have hrange := kind_range_within k
  exact decide_eq_true (by omega)

theorem step_decodeCall {k : Kind} {bytes : List Nat} (hlen : bytes.length = k.bytes) (o : Order) (s : State) :
    step (s.present (callInputs (.decode k bytes o))) =
      .next { inputs := callInputs (.decode k bytes o)
              outputs := some (.decoded (decodedValue k o (callInputs (.decode k bytes o)).bIn.value)) } := by
  have hle := kind_bytes_le_four k
  have hn : seqLen (s.present (callInputs (.decode k bytes o))) = k.bytes := by
    rw [seqLen, present_inputs, callInputs_lenIn_toNat k (by omega), hlen]
  rw [step_present_callInputs, callInstr, exec_decodeOf, evalDecode_of_length _ hn, drive_present, present_inputs]
  · exact lanesHeld_of_allHeld hle (present_inputs s _ ▸ heldPort_allHeld _)
  · exact present_inputs s _ ▸ heldPort_allHeld _

theorem step_encodeCall {k : Kind} {v : Int} (hmin : k.min ≤ v) (hmax : v ≤ k.max) (o : Order) (s : State) :
    step (s.present (callInputs (.encode k v o))) =
      .next { inputs := callInputs (.encode k v o), outputs := some (.encoded (encodedBytes k o v)) } := by
  have hv : intOperand (s.present (callInputs (.encode k v o))) = v := by
    rw [intOperand, present_inputs, callInputs_vIn_toInt k (valuePresentable_of_mem_range hmin hmax)]
  rw [step_present_callInputs, callInstr, exec_encodeOf, evalEncode_of_inRange _ (hv.symm ▸ ⟨hmin, hmax⟩),
    drive_present, hv]
  exact present_inputs s _ ▸ heldPort_allHeld _

/-- Settles O43: the step delivers the decoded value of the call's lanes, or the lanes of the call's value, and assembly
sums either by rank. -/
theorem callsEvaluateToTheirValues : Obligations.CallsEvaluateToTheirValues := by
  refine ⟨fun k bytes o s hlen hlt => ?_, fun k v o s hmin hmax => ?_⟩
  · have hbytes := elementsAreBytes_iff.mpr hlt
    refine ⟨_, _, assembleCall_of_wf (wf_decode_of_length hlen hbytes o), step_decodeCall hlen o s, rfl, ?_⟩
    rw [decoded_rOut, toInt_ofInt_of_mem_range (by decide) (decodedValue_mem_range k o _), decodedValue_eq_ite,
      assembleBytes_callInputs k hbytes]
  · have hwf : (Call.encode k v o).wf = true := valuePresentable_of_mem_range hmin hmax
    refine ⟨_, _, assembleCall_of_wf hwf, step_encodeCall hmin hmax o s, rfl, ?_, ?_⟩
    · rw [encoded_lenOut, encodedBytes_length, (toNat_ofNat_kind_bytes k).1]
    · exact (congrArg _ (assembleBytes_packLanes_encodedBytes k o v)).trans (natCast_patternOf k v)

end Sys2Proof.Machine
end
